-- ==== Sys2Proof/Word.lean ====
section
/-! DEFINITION. The word types of the CHIP-8 core (00_scope.md, section 5: every value is unsigned). -/

namespace Sys2Proof

/-- `u4`: register indexes, key indexes, sprite row counts and the nibbles of a word. -/
abbrev Nibble := BitVec 4

/-- `u8`: memory bytes, V registers, timers and immediates. -/
abbrev Byte := BitVec 8

/-- `u12`: the address field `nnn` of an instruction. -/
abbrev Addr := BitVec 12

/-- `u16`: I, PC, return addresses and instruction words. -/
abbrev Word := BitVec 16

end Sys2Proof
end

