-- ==== Sys2Proof/Syntax.lean ====
section
/-! DEFINITION. The instructions of the opcode map (30_encoding.md rule R85), one constructor per row,
in the table's order, with the operand fields of rule R82. -/

namespace Sys2Proof

/-- One constructor per row of R85. `x` and `y` name V registers, `nnn` is the 12-bit address, `kk` the
8-bit immediate, `n` the 4-bit row count. The `y` of the shifts is encoded and ignored (R158, R160). -/
inductive Instr where
  | cls
  | ret
  | sys (nnn : Addr)
  | jp (nnn : Addr)
  | call (nnn : Addr)
  | seImm (x : Nibble) (kk : Byte)
  | sneImm (x : Nibble) (kk : Byte)
  | seReg (x y : Nibble)
  | ldImm (x : Nibble) (kk : Byte)
  | addImm (x : Nibble) (kk : Byte)
  | ldReg (x y : Nibble)
  | orReg (x y : Nibble)
  | andReg (x y : Nibble)
  | xorReg (x y : Nibble)
  | addReg (x y : Nibble)
  | sub (x y : Nibble)
  | shr (x y : Nibble)
  | subn (x y : Nibble)
  | shl (x y : Nibble)
  | sneReg (x y : Nibble)
  | ldI (nnn : Addr)
  | jpV0 (nnn : Addr)
  | rnd (x : Nibble) (kk : Byte)
  | drw (x y n : Nibble)
  | skp (x : Nibble)
  | sknp (x : Nibble)
  | ldVxDt (x : Nibble)
  | ldVxK (x : Nibble)
  | ldDtVx (x : Nibble)
  | ldStVx (x : Nibble)
  | addIVx (x : Nibble)
  | ldF (x : Nibble)
  | bcd (x : Nibble)
  | storeRegs (x : Nibble)
  | loadRegs (x : Nibble)
deriving DecidableEq, Repr

end Sys2Proof
end

