-- ==== Sys2Proof/WellFormed.lean ====
section
/-! DEFINITION. Which terms of `Instr` are instructions of the opcode map. The field types carry every
width of rule R82; the one check left is the priority of rule R84. -/

namespace Sys2Proof

/-- SYS is `0nnn` with `nnn` neither 0x0E0 nor 0x0EE: those two words are CLS and RET (R84). -/
def Instr.wf : Instr → Bool
  | .sys nnn => nnn != 0x0E0#12 && nnn != 0x0EE#12
  | _ => true

end Sys2Proof
end

