-- ==== Sys2Proof/Decode.lean ====
section
/-! DEFINITION. Decoding and encoding (30_encoding.md). `decode` is total on 16-bit words and dispatches
on the nibbles as rules R84 to R86 say; `encode` is written from the match column and the fields of
rule R85; `opcodeRows` is the table of rule R85 as data, for the statement that the two agree. -/

namespace Sys2Proof

/-! ### Fields of a word (R81, R82) -/

/-- The nibble `n0 = w[15:12]` (R81). -/
def nibble0 (w : Word) : Nibble := w.extractLsb' 12 4

/-- The field `x = n1 = w[11:8]` (R82). -/
def fieldX (w : Word) : Nibble := w.extractLsb' 8 4

/-- The field `y = n2 = w[7:4]` (R82). -/
def fieldY (w : Word) : Nibble := w.extractLsb' 4 4

/-- The field `n = n3 = w[3:0]` (R82). -/
def fieldN (w : Word) : Nibble := w.extractLsb' 0 4

/-- The field `kk = n2 ++ n3 = w[7:0]` (R82). -/
def fieldKk (w : Word) : Byte := w.extractLsb' 0 8

/-- The field `nnn = n1 ++ n2 ++ n3 = w[11:0]` (R82). -/
def fieldNnn (w : Word) : Addr := w.extractLsb' 0 12

/-! ### Decoding -/

/-- Why bytes are no instruction of R85. -/
inductive DecodeError where
  /-- The word matches no row of R85: the undefined instruction (R86). -/
  | undefinedWord (w : Word)
  /-- Fewer than two bytes: no word (R80). -/
  | truncated
deriving DecidableEq, Repr

/-- The words whose first nibble is 0: CLS and RET before SYS (R84). -/
def decodeSystem (w : Word) : Instr :=
  if w = 0x00E0#16 then .cls
  else if w = 0x00EE#16 then .ret
  else .sys (fieldNnn w)

/-- The words `8xyN`: the low nibble is the function code (R83, R85, R86). -/
def decodeAlu (w : Word) : Except DecodeError Instr :=
  let x := fieldX w
  let y := fieldY w
  let fn := fieldN w
  if fn = 0x0#4 then .ok (.ldReg x y)
  else if fn = 0x1#4 then .ok (.orReg x y)
  else if fn = 0x2#4 then .ok (.andReg x y)
  else if fn = 0x3#4 then .ok (.xorReg x y)
  else if fn = 0x4#4 then .ok (.addReg x y)
  else if fn = 0x5#4 then .ok (.sub x y)
  else if fn = 0x6#4 then .ok (.shr x y)
  else if fn = 0x7#4 then .ok (.subn x y)
  else if fn = 0xE#4 then .ok (.shl x y)
  else .error (.undefinedWord w)

/-- The words `ExKK`: the low byte is the function code (R83, R85, R86). -/
def decodeKeys (w : Word) : Except DecodeError Instr :=
  let x := fieldX w
  let fn := fieldKk w
  if fn = 0x9E#8 then .ok (.skp x)
  else if fn = 0xA1#8 then .ok (.sknp x)
  else .error (.undefinedWord w)

/-- The words `FxKK`: the low byte is the function code (R83, R85, R86). -/
def decodeMisc (w : Word) : Except DecodeError Instr :=
  let x := fieldX w
  let fn := fieldKk w
  if fn = 0x07#8 then .ok (.ldVxDt x)
  else if fn = 0x0A#8 then .ok (.ldVxK x)
  else if fn = 0x15#8 then .ok (.ldDtVx x)
  else if fn = 0x18#8 then .ok (.ldStVx x)
  else if fn = 0x1E#8 then .ok (.addIVx x)
  else if fn = 0x29#8 then .ok (.ldF x)
  else if fn = 0x33#8 then .ok (.bcd x)
  else if fn = 0x55#8 then .ok (.storeRegs x)
  else if fn = 0x65#8 then .ok (.loadRegs x)
  else .error (.undefinedWord w)

/-- Decoding a word (R84, R103): total, reads nothing but the word. A word that matches no row is
rejected by name; what the machine does with it is `Machine.execUndefined` (R105, log 15). -/
def decode (w : Word) : Except DecodeError Instr :=
  let op := nibble0 w
  let x := fieldX w
  let y := fieldY w
  let kk := fieldKk w
  let nnn := fieldNnn w
  if op = 0x0#4 then .ok (decodeSystem w)
  else if op = 0x1#4 then .ok (.jp nnn)
  else if op = 0x2#4 then .ok (.call nnn)
  else if op = 0x3#4 then .ok (.seImm x kk)
  else if op = 0x4#4 then .ok (.sneImm x kk)
  else if op = 0x5#4 then
    if fieldN w = 0x0#4 then .ok (.seReg x y) else .error (.undefinedWord w)
  else if op = 0x6#4 then .ok (.ldImm x kk)
  else if op = 0x7#4 then .ok (.addImm x kk)
  else if op = 0x8#4 then decodeAlu w
  else if op = 0x9#4 then
    if fieldN w = 0x0#4 then .ok (.sneReg x y) else .error (.undefinedWord w)
  else if op = 0xA#4 then .ok (.ldI nnn)
  else if op = 0xB#4 then .ok (.jpV0 nnn)
  else if op = 0xC#4 then .ok (.rnd x kk)
  else if op = 0xD#4 then .ok (.drw x y (fieldN w))
  else if op = 0xE#4 then decodeKeys w
  else decodeMisc w

/-- The word of two bytes in storage order: the first byte is the high one (R57). -/
def wordOfBytes (hi lo : Byte) : Word := hi ++ lo

/-- The high byte of a word, stored at the lower address (R57). -/
def wordHigh (w : Word) : Byte := w.extractLsb' 8 8

/-- The low byte of a word, stored at the higher address (R57). -/
def wordLow (w : Word) : Byte := w.extractLsb' 0 8

/-- Decoding bytes in storage order: the instruction and the bytes after it. Every instruction takes
exactly two bytes (R80). -/
def decodeBytes : List Byte → Except DecodeError (Instr × List Byte)
  | hi :: lo :: rest =>
    match decode (wordOfBytes hi lo) with
    | .ok i => .ok (i, rest)
    | .error e => .error e
  | _ => .error .truncated

/-- The host's question: what the decoder reads from the 16-bit word `w`, numbered as the table numbers
it, laid out as the hardware stores it. A number that has a bit above the first `nbits`, or above a
word, is no word of the table. -/
def decodeTableWord (nbits w : Nat) : Option Instr :=
  if w < 2 ^ nbits ∧ w < 2 ^ 16 then
    match decodeBytes [wordHigh (BitVec.ofNat 16 w), wordLow (BitVec.ofNat 16 w)] with
    | .ok (i, _) => some i
    | .error _ => none
  else none

/-! ### Encoding -/

/-- A word of format ADDR (R83). -/
def wordAddr (op : Nibble) (nnn : Addr) : Word := op ++ nnn

/-- A word of format XKK (R83). Format X is the same layout with a fixed low byte. -/
def wordXKk (op x : Nibble) (kk : Byte) : Word := op ++ x ++ kk

/-- A word of format XYN (R83). Format XY is the same layout with a fixed low nibble. -/
def wordXYN (op x y n : Nibble) : Word := op ++ x ++ y ++ n

/-- The word of an instruction: its row's fixed nibbles and its fields in place (R83, R85). -/
def encode : Instr → Word
  | .cls => 0x00E0#16
  | .ret => 0x00EE#16
  | .sys nnn => wordAddr 0x0 nnn
  | .jp nnn => wordAddr 0x1 nnn
  | .call nnn => wordAddr 0x2 nnn
  | .seImm x kk => wordXKk 0x3 x kk
  | .sneImm x kk => wordXKk 0x4 x kk
  | .seReg x y => wordXYN 0x5 x y 0x0
  | .ldImm x kk => wordXKk 0x6 x kk
  | .addImm x kk => wordXKk 0x7 x kk
  | .ldReg x y => wordXYN 0x8 x y 0x0
  | .orReg x y => wordXYN 0x8 x y 0x1
  | .andReg x y => wordXYN 0x8 x y 0x2
  | .xorReg x y => wordXYN 0x8 x y 0x3
  | .addReg x y => wordXYN 0x8 x y 0x4
  | .sub x y => wordXYN 0x8 x y 0x5
  | .shr x y => wordXYN 0x8 x y 0x6
  | .subn x y => wordXYN 0x8 x y 0x7
  | .shl x y => wordXYN 0x8 x y 0xE
  | .sneReg x y => wordXYN 0x9 x y 0x0
  | .ldI nnn => wordAddr 0xA nnn
  | .jpV0 nnn => wordAddr 0xB nnn
  | .rnd x kk => wordXKk 0xC x kk
  | .drw x y n => wordXYN 0xD x y n
  | .skp x => wordXKk 0xE x 0x9E
  | .sknp x => wordXKk 0xE x 0xA1
  | .ldVxDt x => wordXKk 0xF x 0x07
  | .ldVxK x => wordXKk 0xF x 0x0A
  | .ldDtVx x => wordXKk 0xF x 0x15
  | .ldStVx x => wordXKk 0xF x 0x18
  | .addIVx x => wordXKk 0xF x 0x1E
  | .ldF x => wordXKk 0xF x 0x29
  | .bcd x => wordXKk 0xF x 0x33
  | .storeRegs x => wordXKk 0xF x 0x55
  | .loadRegs x => wordXKk 0xF x 0x65

/-! ### The opcode map as data -/

/-- One row of the table of R85: its document name and its mask and match columns. -/
structure OpcodeRow where
  name : String
  mask : Word
  pattern : Word
deriving DecidableEq, Repr

/-- Does the word select the row? `(w AND mask) == match` (R85). -/
def OpcodeRow.fits (r : OpcodeRow) (w : Word) : Bool := (w &&& r.mask) == r.pattern

/-- Rows 1 to 20 of R85, in the table's order. -/
def opcodeRowsLow : List OpcodeRow :=
  [⟨"CLS", 0xFFFF, 0x00E0⟩, ⟨"RET", 0xFFFF, 0x00EE⟩, ⟨"SYS", 0xF000, 0x0000⟩,
   ⟨"JP", 0xF000, 0x1000⟩, ⟨"CALL", 0xF000, 0x2000⟩, ⟨"SE-imm", 0xF000, 0x3000⟩,
   ⟨"SNE-imm", 0xF000, 0x4000⟩, ⟨"SE-reg", 0xF00F, 0x5000⟩, ⟨"LD-imm", 0xF000, 0x6000⟩,
   ⟨"ADD-imm", 0xF000, 0x7000⟩, ⟨"LD-reg", 0xF00F, 0x8000⟩, ⟨"OR", 0xF00F, 0x8001⟩,
   ⟨"AND", 0xF00F, 0x8002⟩, ⟨"XOR", 0xF00F, 0x8003⟩, ⟨"ADD-reg", 0xF00F, 0x8004⟩,
   ⟨"SUB", 0xF00F, 0x8005⟩, ⟨"SHR", 0xF00F, 0x8006⟩, ⟨"SUBN", 0xF00F, 0x8007⟩,
   ⟨"SHL", 0xF00F, 0x800E⟩, ⟨"SNE-reg", 0xF00F, 0x9000⟩]

/-- Rows 21 to 35 of R85, in the table's order. -/
def opcodeRowsHigh : List OpcodeRow :=
  [⟨"LD_I", 0xF000, 0xA000⟩, ⟨"JP_V0+addr", 0xF000, 0xB000⟩, ⟨"RND", 0xF000, 0xC000⟩,
   ⟨"DRW", 0xF000, 0xD000⟩, ⟨"SKP", 0xF0FF, 0xE09E⟩, ⟨"SKNP", 0xF0FF, 0xE0A1⟩,
   ⟨"LD_Vx_DT", 0xF0FF, 0xF007⟩, ⟨"LD_Vx_K", 0xF0FF, 0xF00A⟩, ⟨"LD_DT_Vx", 0xF0FF, 0xF015⟩,
   ⟨"LD_ST_Vx", 0xF0FF, 0xF018⟩, ⟨"ADD_I_Vx", 0xF0FF, 0xF01E⟩, ⟨"LD_I_Fx", 0xF0FF, 0xF029⟩,
   ⟨"BCD", 0xF0FF, 0xF033⟩, ⟨"LD__I__Vx", 0xF0FF, 0xF055⟩, ⟨"LD_Vx__I", 0xF0FF, 0xF065⟩]

/-- The opcode map of R85. The first row that fits wins, which is the priority of R84. -/
def opcodeRows : List OpcodeRow := opcodeRowsLow ++ opcodeRowsHigh

/-- The name of the first row that a word fits, by the mask and match columns alone (R84, R85). -/
def tableName (w : Word) : Option String := (opcodeRows.find? (·.fits w)).map (·.name)

/-- The table's name of an instruction (spec/opcode_table.json, the column "mnemonic"). -/
def Instr.name : Instr → String
  | .cls => "CLS"
  | .ret => "RET"
  | .sys _ => "SYS"
  | .jp _ => "JP"
  | .call _ => "CALL"
  | .seImm _ _ => "SE-imm"
  | .sneImm _ _ => "SNE-imm"
  | .seReg _ _ => "SE-reg"
  | .ldImm _ _ => "LD-imm"
  | .addImm _ _ => "ADD-imm"
  | .ldReg _ _ => "LD-reg"
  | .orReg _ _ => "OR"
  | .andReg _ _ => "AND"
  | .xorReg _ _ => "XOR"
  | .addReg _ _ => "ADD-reg"
  | .sub _ _ => "SUB"
  | .shr _ _ => "SHR"
  | .subn _ _ => "SUBN"
  | .shl _ _ => "SHL"
  | .sneReg _ _ => "SNE-reg"
  | .ldI _ => "LD_I"
  | .jpV0 _ => "JP_V0+addr"
  | .rnd _ _ => "RND"
  | .drw _ _ _ => "DRW"
  | .skp _ => "SKP"
  | .sknp _ => "SKNP"
  | .ldVxDt _ => "LD_Vx_DT"
  | .ldVxK _ => "LD_Vx_K"
  | .ldDtVx _ => "LD_DT_Vx"
  | .ldStVx _ => "LD_ST_Vx"
  | .addIVx _ => "ADD_I_Vx"
  | .ldF _ => "LD_I_Fx"
  | .bcd _ => "BCD"
  | .storeRegs _ => "LD__I__Vx"
  | .loadRegs _ => "LD_Vx__I"

end Sys2Proof
end

