-- ==== Sys2Proof/Config.lean ====
section
/-! DEFINITION. The implementation parameters of 00_scope.md section 4, and the one free value of the
model. STACK_DEPTH is a field of State (log 6), so that every statement holds for each of its values. -/

namespace Sys2Proof.Config

/-- MEM_SIZE (R5). -/
abbrev memSize : Nat := 4096

/-- PROGRAM_START (R6): where the image is loaded and where PC resets to. -/
abbrev programStart : Nat := 0x200

/-- FONT_BASE (R7). -/
abbrev fontBase : Nat := 0x000

/-- FONT_SIZE (R7). -/
abbrev fontSize : Nat := 80

/-- W, the display width, at its default (R11). DESIGN CHOICE: fixed at the default (log 7). Unsafe for
a core with another width. -/
abbrev width : Nat := 64

/-- H, the display height, at its default (R11). DESIGN CHOICE: fixed at the default (log 7). Unsafe
for a core with another height. -/
abbrev height : Nat := 32

/-- TICK_HZ (R13): an obligation of the host (R244); no rule of the block reads it. -/
abbrev tickHz : Nat := 60

/-- The first half of `font`, the glyphs 0 to 7 (R41). -/
def fontLow : List Byte :=
  [0xF0, 0x90, 0x90, 0x90, 0xF0,  0x20, 0x60, 0x20, 0x20, 0x70,
   0xF0, 0x10, 0xF0, 0x80, 0xF0,  0xF0, 0x10, 0xF0, 0x10, 0xF0,
   0x90, 0x90, 0xF0, 0x10, 0x10,  0xF0, 0x80, 0xF0, 0x10, 0xF0,
   0xF0, 0x80, 0xF0, 0x90, 0xF0,  0xF0, 0x10, 0x20, 0x40, 0x40]

/-- The second half of `font`, the glyphs 8 to F (R41). -/
def fontHigh : List Byte :=
  [0xF0, 0x90, 0xF0, 0x90, 0xF0,  0xF0, 0x90, 0xF0, 0x10, 0xF0,
   0xF0, 0x90, 0xF0, 0x90, 0x90,  0xE0, 0x90, 0xE0, 0x90, 0xE0,
   0xF0, 0x80, 0x80, 0x80, 0xF0,  0xE0, 0x90, 0x90, 0x90, 0xE0,
   0xF0, 0x80, 0xF0, 0x80, 0xF0,  0xF0, 0x80, 0xF0, 0x80, 0x80]

/-- FONT at its default (R8, R41): glyph d at bytes 5d to 5d+4. PRESUMED: the byte values are general
knowledge, imported by the spec (D5, log 8). Unsafe for a core with another font. -/
def font : List Byte := fontLow ++ fontHigh

/-- RANDOM (R14): the byte that the host supplies with the `n`-th execution of RND. A FREE VALUE: it has
no body, so a proof holds for every draw (D18, log 2). Safe. -/
opaque randomByte : Nat → Byte

end Sys2Proof.Config
end

