-- ==== Sys2Proof/Machine/State.lean ====
section
/-! DEFINITION. The state of the block (10_state.md), as plain data: the machine's own state, the
parameter STACK_DEPTH, and the model's own record of the block's inputs and outputs. -/

namespace Sys2Proof.Machine

/-- Why a step ends the session: the fatal fault kinds of R234, each with the information that R234
records. The outcome carries the record and no state (R236, log 1). -/
inductive Fault where
  /-- MEMORY_OUT_OF_BOUNDS: an access at the address `addr`, 4096 or more. Raised by the fetch, DRW, BCD,
  LD [I],Vx and LD Vx,[I] (R53, R234). Safe: the spec states the fault. -/
  | memoryOutOfBounds (addr : Nat)
  /-- KEY_INDEX_OUT_OF_RANGE: the key index `k`, 16 or more. Raised by SKP and SKNP (R216, R234). Safe: the
  spec states the fault. -/
  | keyIndexOutOfRange (k : Byte)
  /-- STACK_OVERFLOW: the address of the CALL. Raised by CALL on a full bounded stack (R125, R234). Safe:
  the spec states the fault. -/
  | stackOverflow (addr : Word)
deriving DecidableEq, Repr

/-- Why the model has no meaning for an instruction. Every instruction has one, so nothing raises it. -/
inductive Refusal where
  /-- An arm of exec that has no meaning yet; raised by no arm. Safe. -/
  | notModelled (mnemonic : String)
deriving DecidableEq, Repr

/-- The kinds of report of R232. -/
inductive ReportKind where
  | undefinedInstruction
  | stackUnderflow
  | sysUnsupported
deriving DecidableEq, Repr

/-- A diagnostic event: its kind, the address of the instruction that raised it, and its word (R231). -/
structure Report where
  kind : ReportKind
  addr : Word
  word : Word
deriving DecidableEq, Repr

/-- The execution mode (R28): a wait state, not a privilege level (R240). -/
inductive Mode where
  | normal
  | awaitKey (x : Nibble)
deriving DecidableEq, Repr

/-- The transactions that the host issues while a session runs (R250 to R254, R256). `load` comes before
the first step only (R255) and is `Machine.powerOn`. -/
inductive Transaction where
  | cpuStep
  | timerTick
  | keyWrite (k : Nibble) (level : Bool)
  | displayRead
  | displayAck
deriving DecidableEq, Repr

/-- Memory (R33): the bytes that differ from the reset contents `Memory.blank`, by rising address. -/
abbrev Memory := List Host.Cell

/-- The pixel grid (R30): `pix[x][y]` for a column x below W and a row y below H; true is a lit pixel. -/
abbrev Grid := Vector (Vector Bool Config.height) Config.width

/-- The state of the block. -/
structure State where
  /-- V0 to VF (R20). -/
  v : Vector Byte 16
  /-- The address register I (R23). -/
  i : Word
  /-- The program counter (R24). While an instruction executes it is the post-fetch value (R101). -/
  pc : Word
  /-- The call stack, top first (R25). -/
  stack : List Word
  /-- The delay timer DT (R26). -/
  dt : Byte
  /-- The sound timer ST (R27). -/
  st : Byte
  /-- The execution mode (R28). -/
  mode : Mode
  /-- Memory (R33), in the canonical form `Memory.wf`. -/
  mem : Memory
  /-- The display surface (R30). -/
  pix : Grid
  /-- The display's "changed" flag (R31). -/
  changed : Bool
  /-- The keyboard: true is a pressed key (R32). -/
  keys : Vector Bool 16
  /-- The session status: none, or the fatal record (R34). -/
  fatal : Option Fault
  /-- The parameter STACK_DEPTH (R10): none is unbounded. Nothing writes it (log 6). -/
  stackDepth : Option Nat
  /-- The MODEL's own: how many RANDOM draws were taken (R14, log 3). -/
  draws : Nat
  /-- The MODEL's own: the report events emitted so far, oldest first (R231, log 5). -/
  reports : List Report
  /-- The MODEL's own: the transactions that the host issues next, first first (R256, log 4). -/
  host : List Transaction
deriving DecidableEq, Repr

/-- The machine right after reset, with no program image (R260): R37 for V and I, R38 for PC, stack and
mode, R39 for the timers, R40 for memory (nothing listed: every byte reads as its reset content), R42 for
the pixels, R43 for the keys, R44 for `fatal`. DESIGN CHOICE: `changed` is false, where R42 leaves it open
(log 10, unsafe); `stackDepth` is the spec's default (R10, log 6); the model's own fields start at 0 and
empty (log 3, 4, 5). -/
def State.reset : State where
  v := Vector.replicate 16 0
  i := 0
  pc := BitVec.ofNat 16 Config.programStart
  stack := []
  dt := 0
  st := 0
  mode := .normal
  mem := []
  pix := Vector.replicate Config.width (Vector.replicate Config.height false)
  changed := false
  keys := Vector.replicate 16 false
  fatal := none
  stackDepth := none
  draws := 0
  reports := []
  host := []

end Sys2Proof.Machine
end

