-- ==== Sys2Proof/Machine/Ops.lean ====
section
/-! DEFINITION. The named operations over the state: memory, program counter, stack, display, keyboard,
events and timers. Every meaning is written over these. -/

namespace Sys2Proof.Machine

/-- What a step or an instruction answers. -/
abbrev Answer := Host.Outcome State Fault Refusal

/-! ### Exceptional events (60_exceptions.md)

The block has no trap entry and no trap return (R239). Its two kinds of event are a report, after which
execution continues in line, and a fatal fault, which ends the session (R230). -/

/-- The numeric code of a report kind (R232). -/
def ReportKind.code : ReportKind → Nat
  | .undefinedInstruction => 0x01
  | .stackUnderflow => 0x02
  | .sysUnsupported => 0x03

/-- The numeric code of a fatal fault kind (R234). -/
def Fault.code : Fault → Nat
  | .memoryOutOfBounds _ => 0x10
  | .keyIndexOutOfRange _ => 0x11
  | .stackOverflow _ => 0x12

/-- The address `a` of the executing instruction: PC holds `a + 2` from the fetch on (R101, R104, log 13). -/
def State.instrAddr (s : State) : Word := s.pc - 2

/-- `report(kind, addr, word)`: emit one diagnostic event; no architectural state changes (R231). -/
def State.report (s : State) (kind : ReportKind) (word : Word) : State :=
  { s with reports := s.reports ++ [⟨kind, s.instrAddr, word⟩] }

/-- `raise Fatal(kind, info)`: the session ends; the outcome carries the record and no usable state
(R235, R236, log 1). -/
def raiseFatal (f : Fault) : Answer := .fault f

/-- The answer of an operation that either completes in a state or raises a fatal fault. -/
def answerOf : Except Fault State → Answer
  | .ok s => .next s
  | .error f => raiseFatal f

/-! ### Memory (20_memory.md section 1) -/

/-- What an address reads as that memory does not list: its reset content, FONT at 0x000 to 0x04F and 0
elsewhere (R40, R55, log 9). -/
def Memory.blank (a : Nat) : Byte := Config.font.getD a 0

/-- The listed byte at an address. -/
def Memory.lookup : Memory → Nat → Option Byte
  | [], _ => none
  | (k, b) :: m, a => if k = a then some b else lookup m a

/-- `mem[a]` (R33). -/
def Memory.read (m : Memory) (a : Nat) : Byte := (m.lookup a).getD (blank a)

/-- List the byte `b` at `a`, keeping the addresses rising. -/
def Memory.put (a : Nat) (b : Byte) : Memory → Memory
  | [] => [(a, b)]
  | (k, c) :: m =>
    if a < k then (a, b) :: (k, c) :: m
    else if a = k then (a, b) :: m
    else (k, c) :: put a b m

/-- `mem[a] <- b` (R33), in canonical form: the reset content is not listed. -/
def Memory.write (m : Memory) (a : Nat) (b : Byte) : Memory :=
  if b = blank a then m.filter (fun c => c.1 ≠ a) else m.put a b

/-- The canonical form of a memory whose addresses are all `lo` or more. -/
def Memory.wfFrom (lo : Nat) : Memory → Bool
  | [] => true
  | (k, b) :: m => decide (lo ≤ k) && decide (k < Config.memSize) && b != blank k && wfFrom (k + 1) m

/-- The canonical form: addresses strictly rising and inside memory, no reset content listed. -/
def Memory.wf (m : Memory) : Bool := wfFrom 0 m

/-- `MemRead(addr, 1)`: the address is an unbounded natural number and never wraps (R51, R53). -/
def State.memRead (s : State) (a : Nat) : Except Fault Byte :=
  if a < Config.memSize then .ok (s.mem.read a) else .error (.memoryOutOfBounds a)

/-- `MemWrite(addr, 1, b)` (R52, R53). -/
def State.memWrite (s : State) (a : Nat) (b : Byte) : Except Fault State :=
  if a < Config.memSize then .ok { s with mem := s.mem.write a b } else .error (.memoryOutOfBounds a)

/-- Write bytes at consecutive ascending addresses from `a` (R58), stopping at the first that is out of
bounds (R237). -/
def State.storeBytes (s : State) (a : Nat) : List Byte → Except Fault State
  | [] => .ok s
  | b :: bs =>
    match s.memWrite a b with
    | .ok s' => s'.storeBytes (a + 1) bs
    | .error f => .error f

/-! ### Registers, program counter and stack -/

/-- Read the V register that a 4-bit field names (R20). -/
def State.getV (s : State) (x : Nibble) : Byte := s.v[x.toNat]'x.isLt

/-- Write the V register that a 4-bit field names (R20, R21). -/
def State.setV (s : State) (x : Nibble) (b : Byte) : State := { s with v := s.v.set x.toNat b x.isLt }

/-- Write PC (R24). -/
def State.setPc (s : State) (a : Word) : State := { s with pc := a }

/-- Write I (R23). -/
def State.setI (s : State) (a : Word) : State := { s with i := a }

/-- Write DT (R26). -/
def State.setDt (s : State) (b : Byte) : State := { s with dt := b }

/-- Write ST (R27). -/
def State.setSt (s : State) (b : Byte) : State := { s with st := b }

/-- Write the execution mode (R28). -/
def State.setMode (s : State) (m : Mode) : State := { s with mode := m }

/-- `skip()`: PC moves past one more 2-byte slot (R110). -/
def State.skip (s : State) : State := s.setPc (s.pc + 2)

/-- `skip()` when a condition holds: the shared shape of the six skip instructions (R110). -/
def State.skipIf (s : State) (c : Bool) : State := if c then s.skip else s

/-- `push(v)` (R25). -/
def State.push (s : State) (a : Word) : State := { s with stack := a :: s.stack }

/-- Is a bounded stack full (R123, R125)? An unbounded one never is. -/
def State.stackFull (s : State) : Bool :=
  match s.stackDepth with
  | none => false
  | some d => s.stack.length == d

/-- Take one RANDOM draw: the byte that the host supplies for this execution, and the state that has
taken it (R14, log 2, log 3). -/
def State.drawRandom (s : State) : Byte × State :=
  (Config.randomByte s.draws, { s with draws := s.draws + 1 })

/-- Load `n` registers from V[k] up with the bytes from `a + k` up, in ascending order (R185), stopping at
the first address out of bounds (R237). -/
def State.loadFrom (s : State) (a k : Nat) : Nat → Except Fault State
  | 0 => .ok s
  | n + 1 =>
    match s.memRead (a + k) with
    | .ok b => (s.setV (BitVec.ofNat 4 k) b).loadFrom a (k + 1) n
    | .error f => .error f

/-! ### Display (20_memory.md section 3) -/

/-- The column that a coordinate falls on: modulo W (R60). -/
def column (x : Nat) : Fin Config.width := ⟨x % Config.width, Nat.mod_lt _ (by decide)⟩

/-- The row that a coordinate falls on: modulo H (R60). -/
def row (y : Nat) : Fin Config.height := ⟨y % Config.height, Nat.mod_lt _ (by decide)⟩

/-- `read_pixel(x, y)`, at coordinates modulo W and H (R60, R64). -/
def State.pixel (s : State) (x y : Nat) : Bool := s.pix[column x][row y]

/-- Set one pixel of a grid. -/
def Grid.write (g : Grid) (cx : Fin Config.width) (cy : Fin Config.height) (b : Bool) : Grid :=
  g.set cx.val (g[cx].set cy.val b cy.isLt) cx.isLt

/-- `DispClear()` (R61). -/
def State.dispClear (s : State) : State :=
  { s with
    pix := Vector.replicate Config.width (Vector.replicate Config.height false)
    changed := true }

/-- `DispXorPixel(x, y, b)`: the state after, and whether a lit pixel went off (R62). -/
def State.xorPixel (s : State) (x y : Nat) (b : Bool) : State × Bool :=
  let old := s.pixel x y
  ({ s with pix := Grid.write s.pix (column x) (row y) (old ^^ b), changed := true }, old && b)

/-- XOR bits onto consecutive columns from `x` in the row `y`, first bit first (R63). -/
def State.xorBits (s : State) (x y : Nat) : List Bool → State × Bool
  | [] => (s, false)
  | b :: bs =>
    let first := s.xorPixel x y b
    let rest := first.1.xorBits (x + 1) y bs
    (rest.1, first.2 || rest.2)

/-- The bit `7 - j` of a sprite byte, which goes to the column `x + j` (R63). -/
def spriteBit (b : Byte) (j : Nat) : Bool := b.getLsbD (7 - j)

/-- The bits of a sprite byte, most significant first (R63). -/
def spriteBits (b : Byte) : List Bool := (List.range 8).map (spriteBit b)

/-- `DispXorRow(x, y, row)`: any of the eight writes reported a collision (R63). -/
def State.xorRow (s : State) (x y : Nat) (b : Byte) : State × Bool := s.xorBits x y (spriteBits b)

/-- Draw `n` sprite rows read from `a` up, from the row `y` down, in ascending order (R201): the state
after and whether any row reported a collision, or the fault at the first address out of bounds. -/
def State.drawRows (s : State) (x y a : Nat) : Nat → Except Fault (State × Bool)
  | 0 => .ok (s, false)
  | n + 1 =>
    match s.memRead a with
    | .error f => .error f
    | .ok b =>
      let first := s.xorRow x y b
      match first.1.drawRows x (y + 1) (a + 1) n with
      | .error f => .error f
      | .ok rest => .ok (rest.1, first.2 || rest.2)

/-! ### Keyboard (20_memory.md section 4) -/

/-- `KeyPressed(k)` (R66). -/
def State.keyPressed (s : State) (k : Nibble) : Bool := s.keys[k.toNat]'k.isLt

/-- `KeyScan()`: the lowest pressed key, if any (R67). -/
def State.keyScan (s : State) : Option Nibble :=
  ((List.range 16).map (BitVec.ofNat 4)).find? s.keyPressed

/-! ### Timers (60_exceptions.md section 3) -/

/-- One decrement of a timer, floored at 0 (R241). -/
def timerDown (b : Byte) : Byte := if b = 0 then 0 else b - 1

/-- The one-bit tone output (R246). -/
def State.tone (s : State) : Bool := s.st != 0

end Sys2Proof.Machine
end

