-- ==== Sys2Proof/Machine/Flags.lean ====
section
/-! DEFINITION. VF as the flag (10_state.md section 2), and every flag computation of the instruction set.
Each is an exact comparison of unsigned numbers (R162). -/

namespace Sys2Proof.Machine

/-- VF, the register V[15] (R22). -/
abbrev vf : Nibble := 15

/-- A flag as the byte it is written to VF as: 1 or 0. -/
def flagByte (b : Bool) : Byte := if b then 1 else 0

/-- Write the flag register (R22). -/
def State.setVf (s : State) (b : Bool) : State := s.setV vf (flagByte b)

/-- ADD-reg: the carry out of bit 7 (R156). -/
def carryFlag (a b : Byte) : Bool := decide (0xFF < a.toNat + b.toNat)

/-- SUB and SUBN: no borrow when the second is taken from the first (R157, R159). -/
def notBorrowFlag (a b : Byte) : Bool := decide (b.toNat ≤ a.toNat)

/-- SHR: the bit shifted out (R158). -/
def lowBit (a : Byte) : Bool := a.getLsbD 0

/-- SHL: the bit shifted out (R160). -/
def highBit (a : Byte) : Bool := a.getLsbD 7

end Sys2Proof.Machine
end

