-- ==== Sys2Proof/Machine/Operands.lean ====
section
/-! DEFINITION. The operand forms: zero extension of the fields (R82), the one data addressing mode
(R186), the jump target with an offset (R124), and the register lists of LD [I],Vx. Register fields are
read and written by `State.getV` and `State.setV` in Ops.lean. -/

namespace Sys2Proof.Machine

/-- A 12-bit address where it meets PC or I: zero-extended (R82). -/
def addrOperand (nnn : Addr) : Word := nnn.setWidth 16

/-- A register value where it meets PC or I: zero-extended (R124, R181, R182). -/
def State.wordV (s : State) (x : Nibble) : Word := (s.getV x).setWidth 16

/-- The base of the effective addresses `I + k`: an unbounded natural number (R53, R186). -/
def State.base (s : State) : Nat := s.i.toNat

/-- The target of JP V0, nnn: the sum, not masked to 12 bits (R124). -/
def State.offsetTarget (s : State) (nnn : Addr) : Word := s.wordV 0 + addrOperand nnn

/-- V0 to Vx inclusive, in ascending order (R184). -/
def State.firstV (s : State) (x : Nibble) : List Byte := s.v.toList.take (x.toNat + 1)

/-- The decimal digits of a byte: hundreds, tens, units (R183). -/
def decimalDigits (b : Byte) : List Byte :=
  [BitVec.ofNat 8 (b.toNat / 100), BitVec.ofNat 8 (b.toNat / 10 % 10), BitVec.ofNat 8 (b.toNat % 10)]

end Sys2Proof.Machine
end

