-- ==== Sys2Proof/Machine/Alu.lean ====
section
/-! DEFINITION. Register loads, arithmetic, logic, shifts and random (43_alu.md). Arithmetic is unsigned
on 8 bits, modulo 256 (R162). Where a flag is written, the rule fixes the order of the two writes, which
shows when x = F. -/

namespace Sys2Proof.Machine

/-- LD Vx, kk (R150). -/
def execLdImm (x : Nibble) (kk : Byte) (s : State) : Answer := .next (s.setV x kk)

/-- ADD Vx, kk (R151): no flag. -/
def execAddImm (x : Nibble) (kk : Byte) (s : State) : Answer := .next (s.setV x (s.getV x + kk))

/-- LD Vx, Vy (R152). -/
def execLdReg (x y : Nibble) (s : State) : Answer := .next (s.setV x (s.getV y))

/-- OR Vx, Vy (R153): VF is not reset. -/
def execOr (x y : Nibble) (s : State) : Answer := .next (s.setV x (s.getV x ||| s.getV y))

/-- AND Vx, Vy (R154): VF is not reset. -/
def execAnd (x y : Nibble) (s : State) : Answer := .next (s.setV x (s.getV x &&& s.getV y))

/-- XOR Vx, Vy (R155): VF is not reset. -/
def execXor (x y : Nibble) (s : State) : Answer := .next (s.setV x (s.getV x ^^^ s.getV y))

/-- ADD Vx, Vy (R156): the sum, then the carry into VF. -/
def execAddReg (x y : Nibble) (s : State) : Answer :=
  let vx0 := s.getV x
  let vy0 := s.getV y
  .next ((s.setV x (vx0 + vy0)).setVf (carryFlag vx0 vy0))

/-- SUB Vx, Vy (R157): the difference, then not-borrow into VF. -/
def execSub (x y : Nibble) (s : State) : Answer :=
  let vx0 := s.getV x
  let vy0 := s.getV y
  .next ((s.setV x (vx0 - vy0)).setVf (notBorrowFlag vx0 vy0))

/-- SUBN Vx, Vy (R159): the reverse difference, then not-borrow into VF. -/
def execSubn (x y : Nibble) (s : State) : Answer :=
  let vx0 := s.getV x
  let vy0 := s.getV y
  .next ((s.setV x (vy0 - vx0)).setVf (notBorrowFlag vy0 vx0))

/-- SHR Vx (R158): VF first, then Vx as the first write left it. Vy is not read. -/
def execShr (x _y : Nibble) (s : State) : Answer :=
  let s' := s.setVf (lowBit (s.getV x))
  .next (s'.setV x (s'.getV x >>> 1))

/-- SHL Vx (R160): VF first, then Vx as the first write left it. Vy is not read. -/
def execShl (x _y : Nibble) (s : State) : Answer :=
  let s' := s.setVf (highBit (s.getV x))
  .next (s'.setV x (s'.getV x <<< 1))

/-- RND Vx, kk (R161): the draw, masked. -/
def execRnd (x : Nibble) (kk : Byte) (s : State) : Answer :=
  let drawn := s.drawRandom
  .next (drawn.2.setV x (drawn.1 &&& kk))

end Sys2Proof.Machine
end

