-- ==== Sys2Proof/Machine/Draw.lean ====
section
/-! DEFINITION. The display instructions (45_display.md). -/

namespace Sys2Proof.Machine

/-- CLS (R200). -/
def execCls (s : State) : Answer := .next s.dispClear

/-- DRW Vx, Vy, n (R201): the coordinates are read before VF is written, and VF is written last. -/
def execDrw (x y n : Nibble) (s : State) : Answer :=
  match s.drawRows (s.getV x).toNat (s.getV y).toNat s.base n.toNat with
  | .ok drawn => .next (drawn.1.setVf drawn.2)
  | .error f => raiseFatal f

end Sys2Proof.Machine
end

