-- ==== Sys2Proof/Machine/Flow.lean ====
section
/-! DEFINITION. Control transfer and system instructions (41_flow.md). PC is the post-fetch value on
entry; none of these touches VF. -/

namespace Sys2Proof.Machine

/-- RET (R120): pop PC, or report the underflow and go on. -/
def execRet (s : State) : Answer :=
  match s.stack with
  | [] => .next (s.report .stackUnderflow (encode .ret))
  | a :: rest => .next { s with stack := rest, pc := a }

/-- SYS nnn (R121): report, and nothing else. The word reported is the instruction's own. -/
def execSys (nnn : Addr) (s : State) : Answer :=
  .next (s.report .sysUnsupported (encode (.sys nnn)))

/-- JP nnn (R122). -/
def execJp (nnn : Addr) (s : State) : Answer := .next (s.setPc (addrOperand nnn))

/-- CALL nnn (R123); on a full bounded stack it pushes nothing and the session ends (R125). -/
def execCall (nnn : Addr) (s : State) : Answer :=
  if s.stackFull then raiseFatal (.stackOverflow s.instrAddr)
  else .next ((s.push s.pc).setPc (addrOperand nnn))

/-- JP V0, nnn (R124). -/
def execJpV0 (nnn : Addr) (s : State) : Answer := .next (s.setPc (s.offsetTarget nnn))

end Sys2Proof.Machine
end

