-- ==== Sys2Proof/Machine/IndexMemory.lean ====
section
/-! DEFINITION. The address register and memory transfers (44_index_memory.md). I is unchanged by the
transfers (R186); their addresses `I + k` are unbounded and never wrap (R53). -/

namespace Sys2Proof.Machine

/-- LD I, nnn (R180). -/
def execLdI (nnn : Addr) (s : State) : Answer := .next (s.setI (addrOperand nnn))

/-- ADD I, Vx (R181): modulo 2^16, no flag. -/
def execAddIVx (x : Nibble) (s : State) : Answer := .next (s.setI (s.i + s.wordV x))

/-- LD F, Vx (R182): five times Vx, which is not masked. -/
def execLdF (x : Nibble) (s : State) : Answer := .next (s.setI (s.wordV x * 5))

/-- LD B, Vx (R183). -/
def execBcd (x : Nibble) (s : State) : Answer :=
  answerOf (s.storeBytes s.base (decimalDigits (s.getV x)))

/-- LD [I], Vx (R184). -/
def execStoreRegs (x : Nibble) (s : State) : Answer := answerOf (s.storeBytes s.base (s.firstV x))

/-- LD Vx, [I] (R185). -/
def execLoadRegs (x : Nibble) (s : State) : Answer := answerOf (s.loadFrom s.base 0 (x.toNat + 1))

end Sys2Proof.Machine
end

