-- ==== Sys2Proof/Machine/Skips.lean ====
section
/-! DEFINITION. Conditional skips on registers (42_skips.md). They write PC only. -/

namespace Sys2Proof.Machine

/-- SE Vx, kk (R140). -/
def execSeImm (x : Nibble) (kk : Byte) (s : State) : Answer := .next (s.skipIf (s.getV x == kk))

/-- SNE Vx, kk (R141). -/
def execSneImm (x : Nibble) (kk : Byte) (s : State) : Answer := .next (s.skipIf (s.getV x != kk))

/-- SE Vx, Vy (R142). -/
def execSeReg (x y : Nibble) (s : State) : Answer := .next (s.skipIf (s.getV x == s.getV y))

/-- SNE Vx, Vy (R143). -/
def execSneReg (x y : Nibble) (s : State) : Answer := .next (s.skipIf (s.getV x != s.getV y))

end Sys2Proof.Machine
end

