-- ==== Sys2Proof/Machine/TimersKeys.lean ====
section
/-! DEFINITION. Timer and keyboard instructions (46_timers_keys.md). -/

namespace Sys2Proof.Machine

/-- LD Vx, DT (R210). -/
def execLdVxDt (x : Nibble) (s : State) : Answer := .next (s.setV x s.dt)

/-- LD DT, Vx (R211). -/
def execLdDtVx (x : Nibble) (s : State) : Answer := .next (s.setDt (s.getV x))

/-- LD ST, Vx (R212). -/
def execLdStVx (x : Nibble) (s : State) : Answer := .next (s.setSt (s.getV x))

/-- Ex9E and ExA1: the key index is checked, then the key is read, then PC may skip (R213, R214, R216).
The skip happens when the key's level is `level`. -/
def skipOnKey (k : Byte) (level : Bool) (s : State) : Answer :=
  if k.toNat < 16 then .next (s.skipIf (s.keyPressed (k.setWidth 4) == level))
  else raiseFatal (.keyIndexOutOfRange k)

/-- SKP Vx (R213). -/
def execSkp (x : Nibble) (s : State) : Answer := skipOnKey (s.getV x) true s

/-- SKNP Vx (R214). -/
def execSknp (x : Nibble) (s : State) : Answer := skipOnKey (s.getV x) false s

/-- LD Vx, K (R215): retire at once on a pressed key, else wait. -/
def execLdVxK (x : Nibble) (s : State) : Answer :=
  match s.keyScan with
  | some k => .next (s.setV x (k.setWidth 8))
  | none => .next (s.setMode (.awaitKey x))

end Sys2Proof.Machine
end

