-- ==== Sys2Proof/Machine/Cycle.lean ====
section
/-! DEFINITION. The instruction cycle (40_cycle.md): fetch, decode, execute; the undefined word; and the
poll of a CPU that waits for a key. -/

namespace Sys2Proof.Machine

/-- The fetch: the byte at PC is the high one, the byte at PC + 1 the low one, and the second address is
not wrapped (R57, R101, R102). -/
def State.fetch (s : State) : Except Fault Word :=
  match s.memRead s.pc.toNat with
  | .error f => .error f
  | .ok hi =>
    match s.memRead (s.pc.toNat + 1) with
    | .error f => .error f
    | .ok lo => .ok (wordOfBytes hi lo)

/-- An undefined word: report it, and nothing else (R105). -/
def execUndefined (w : Word) (s : State) : Answer := .next (s.report .undefinedInstruction w)

/-- Decode a fetched word and execute it, in the state after the fetch (R103, R104). -/
def execWord (w : Word) (s : State) : Answer :=
  match decode w with
  | .ok i => exec i s
  | .error _ => execUndefined w s

/-- One poll of the keyboard by a CPU that waits for V[x] (R108). -/
def awaitStep (x : Nibble) (s : State) : State :=
  match s.keyScan with
  | none => s
  | some k => (s.setV x (k.setWidth 8)).setMode .normal

/-- `cpu_step` (R100). -/
def cpuStep (s : State) : Answer :=
  match s.fatal with
  | some _ => .next s
  | none =>
    match s.mode with
    | .awaitKey x => .next (awaitStep x s)
    | .normal =>
      match s.fetch with
      | .error f => raiseFatal f
      | .ok w => execWord w (s.setPc (s.pc + 2))

end Sys2Proof.Machine
end

