-- ==== Sys2Proof/Machine/Transactions.lean ====
section
/-! DEFINITION. The host's transactions (60_exceptions.md section 5), each atomic and between CPU steps
(R107, R256), and the choice of the next one. -/

namespace Sys2Proof.Machine

/-- `timer_tick` (R241): no effect once the session has ended (R235). -/
def timerTick (s : State) : State :=
  match s.fatal with
  | some _ => s
  | none => { s with dt := timerDown s.dt, st := timerDown s.st }

/-- `key_write(k, level)` (R252). -/
def keyWrite (k : Nibble) (level : Bool) (s : State) : State :=
  { s with keys := s.keys.set k.toNat level k.isLt }

/-- `display_ack` (R254). -/
def displayAck (s : State) : State := { s with changed := false }

/-- What `display_read` gives back: the dimensions, the grid and `changed` (R253). -/
structure DisplayView where
  width : Nat
  height : Nat
  pix : Grid
  changed : Bool
deriving DecidableEq, Repr

/-- `display_read` (R253): it changes nothing. -/
def displayRead (s : State) : DisplayView := ⟨Config.width, Config.height, s.pix, s.changed⟩

/-- Perform one transaction (R250 to R254). -/
def transact (t : Transaction) (s : State) : Answer :=
  match t with
  | .cpuStep => cpuStep s
  | .timerTick => .next (timerTick s)
  | .keyWrite k level => .next (keyWrite k level s)
  | .displayRead => .next s
  | .displayAck => .next (displayAck s)

/-- The next transaction of the session: the first that the host's list holds, and a `cpu_step` when it
holds none (R256, log 4). -/
def nextTransaction (s : State) : Answer :=
  match s.host with
  | [] => transact .cpuStep s
  | t :: rest => transact t { s with host := rest }

/-- Place a word where the next fetch reads it: at PC and PC + 1, or at PROGRAM_START where PC leaves no
room for two bytes (log 16). -/
def placeWord (s : State) (w : Word) : State :=
  let a := if s.pc.toNat + 1 < Config.memSize then s.pc.toNat else Config.programStart
  { s with
    pc := BitVec.ofNat 16 a
    mem := (s.mem.write a (wordHigh w)).write (a + 1) (wordLow w) }

end Sys2Proof.Machine
end

