-- ==== Sys2Proof/Machine/Step.lean ====
section
/-! DEFINITION. One step of the machine, and where the host places an instruction. -/

namespace Sys2Proof.Machine

/-- One step: the next transaction of the session, which is a `cpu_step` unless the host's list names
another (R100, R256, log 4). -/
def step (s : State) : Host.Outcome State Fault Refusal := nextTransaction s

/-- The state whose very next step runs the instruction of the word `w`: the word stands at PC, no other
transaction comes first, the CPU waits for no key and the session has not ended (log 16). -/
def State.withFetchWord (s : State) (nbits w : Nat) : State :=
  { placeWord s (BitVec.ofNat 16 (w % 2 ^ nbits)) with mode := .normal, fatal := none, host := [] }

end Sys2Proof.Machine
end

