-- ==== Sys2Proof/Machine/Assembler.lean ====
section
/-! DEFINITION. The assembler syntax of 30_encoding.md section 3, on tokens: a mnemonic and its operands.
How a token is spelled in characters is left out (log 21). -/

namespace Sys2Proof.Machine

/-- The mnemonics of the "syntax (spec)" column of R85, and the alias BCD (R89). -/
inductive Mnemonic where
  | cls | ret | sys | jp | call | se | sne | ld | add | or | and | xor | sub | shr | subn | shl | rnd | drw
  | skp | sknp | bcd
deriving DecidableEq, Repr

/-- The operands of R89: a register, a number, the literal names I, DT, ST, K, F, B and [I], and the two
operands of the document's own labels, `Fx` (of LD I, Fx) and `V0+nnn` (of JP V0+nnn). -/
inductive AsmOperand where
  | reg (x : Nibble)
  | num (n : Nat)
  | regI | regDt | regSt | key | font | digits | atI
  | fontOf (x : Nibble)
  | v0Plus (n : Nat)
deriving DecidableEq, Repr

/-- A number that fits an immediate field of `w` bits (R89). -/
def immediate (w n : Nat) : Option (BitVec w) := if n < 2 ^ w then some (BitVec.ofNat w n) else none

/-- SYS with an address that CLS and RET do not take (R84). -/
def assembleSys (nnn : Addr) : Option Instr := if (Instr.sys nnn).wf then some (.sys nnn) else none

/-- The forms of LD (R85, R89). -/
def assembleLd : List AsmOperand → Option Instr
  | [.reg x, .num n] => (immediate 8 n).map (.ldImm x)
  | [.reg x, .reg y] => some (.ldReg x y)
  | [.regI, .num n] => (immediate 12 n).map .ldI
  | [.reg x, .regDt] => some (.ldVxDt x)
  | [.reg x, .key] => some (.ldVxK x)
  | [.regDt, .reg x] => some (.ldDtVx x)
  | [.regSt, .reg x] => some (.ldStVx x)
  | [.font, .reg x] => some (.ldF x)
  | [.regI, .fontOf x] => some (.ldF x)
  | [.digits, .reg x] => some (.bcd x)
  | [.atI, .reg x] => some (.storeRegs x)
  | [.reg x, .atI] => some (.loadRegs x)
  | _ => none

/-- The forms of ADD (R85). -/
def assembleAdd : List AsmOperand → Option Instr
  | [.reg x, .num n] => (immediate 8 n).map (.addImm x)
  | [.reg x, .reg y] => some (.addReg x y)
  | [.regI, .reg x] => some (.addIVx x)
  | _ => none

/-- The forms of JP, the alias `JP V0+nnn` among them (R85, R89). -/
def assembleJp : List AsmOperand → Option Instr
  | [.num n] => (immediate 12 n).map .jp
  | [.reg x, .num n] => if x = 0 then (immediate 12 n).map .jpV0 else none
  | [.v0Plus n] => (immediate 12 n).map .jpV0
  | _ => none

/-- A mnemonic whose one form has two register operands. -/
def assembleXY (f : Nibble → Nibble → Instr) : List AsmOperand → Option Instr
  | [.reg x, .reg y] => some (f x y)
  | _ => none

/-- A mnemonic whose one form has one register operand. -/
def assembleX (f : Nibble → Instr) : List AsmOperand → Option Instr
  | [.reg x] => some (f x)
  | _ => none

/-- A mnemonic with no operand. -/
def assembleNone (i : Instr) : List AsmOperand → Option Instr
  | [] => some i
  | _ => none

/-- SHR and SHL: Vy may be omitted, which assembles as y = 0 (R89). -/
def assembleShift (f : Nibble → Nibble → Instr) : List AsmOperand → Option Instr
  | [.reg x] => some (f x 0)
  | [.reg x, .reg y] => some (f x y)
  | _ => none

/-- SE and SNE: against an immediate or a register (R85). -/
def assembleSkip (imm : Nibble → Byte → Instr) (reg : Nibble → Nibble → Instr) :
    List AsmOperand → Option Instr
  | [.reg x, .num n] => (immediate 8 n).map (imm x)
  | [.reg x, .reg y] => some (reg x y)
  | _ => none

/-- RND, SYS, CALL and DRW: the forms with numbers that no other mnemonic shares (R85). -/
def assembleNumbers : Mnemonic → List AsmOperand → Option Instr
  | .sys, [.num n] => (immediate 12 n).bind assembleSys
  | .call, [.num n] => (immediate 12 n).map .call
  | .rnd, [.reg x, .num n] => (immediate 8 n).map (.rnd x)
  | .drw, [.reg x, .reg y, .num n] => (immediate 4 n).map (.drw x y)
  | _, _ => none

/-- Assemble one line: each mnemonic form is exactly one instruction, and so one word (R90). -/
def assemble (m : Mnemonic) (ops : List AsmOperand) : Option Instr :=
  match m with
  | .cls => assembleNone .cls ops
  | .ret => assembleNone .ret ops
  | .sys => assembleNumbers .sys ops
  | .jp => assembleJp ops
  | .call => assembleNumbers .call ops
  | .se => assembleSkip .seImm .seReg ops
  | .sne => assembleSkip .sneImm .sneReg ops
  | .ld => assembleLd ops
  | .add => assembleAdd ops
  | .or => assembleXY .orReg ops
  | .and => assembleXY .andReg ops
  | .xor => assembleXY .xorReg ops
  | .sub => assembleXY .sub ops
  | .shr => assembleShift .shr ops
  | .subn => assembleXY .subn ops
  | .shl => assembleShift .shl ops
  | .rnd => assembleNumbers .rnd ops
  | .drw => assembleNumbers .drw ops
  | .skp => assembleX .skp ops
  | .sknp => assembleX .sknp ops
  | .bcd => assembleX .bcd ops

/-- The "syntax (spec)" column of R85. -/
def syntaxOf : Instr → Mnemonic × List AsmOperand
  | .cls => (.cls, [])
  | .ret => (.ret, [])
  | .sys nnn => (.sys, [.num nnn.toNat])
  | .jp nnn => (.jp, [.num nnn.toNat])
  | .call nnn => (.call, [.num nnn.toNat])
  | .seImm x kk => (.se, [.reg x, .num kk.toNat])
  | .sneImm x kk => (.sne, [.reg x, .num kk.toNat])
  | .seReg x y => (.se, [.reg x, .reg y])
  | .ldImm x kk => (.ld, [.reg x, .num kk.toNat])
  | .addImm x kk => (.add, [.reg x, .num kk.toNat])
  | .ldReg x y => (.ld, [.reg x, .reg y])
  | .orReg x y => (.or, [.reg x, .reg y])
  | .andReg x y => (.and, [.reg x, .reg y])
  | .xorReg x y => (.xor, [.reg x, .reg y])
  | .addReg x y => (.add, [.reg x, .reg y])
  | .sub x y => (.sub, [.reg x, .reg y])
  | .shr x y => (.shr, [.reg x, .reg y])
  | .subn x y => (.subn, [.reg x, .reg y])
  | .shl x y => (.shl, [.reg x, .reg y])
  | .sneReg x y => (.sne, [.reg x, .reg y])
  | .ldI nnn => (.ld, [.regI, .num nnn.toNat])
  | .jpV0 nnn => (.jp, [.reg 0, .num nnn.toNat])
  | .rnd x kk => (.rnd, [.reg x, .num kk.toNat])
  | .drw x y n => (.drw, [.reg x, .reg y, .num n.toNat])
  | .skp x => (.skp, [.reg x])
  | .sknp x => (.sknp, [.reg x])
  | .ldVxDt x => (.ld, [.reg x, .regDt])
  | .ldVxK x => (.ld, [.reg x, .key])
  | .ldDtVx x => (.ld, [.regDt, .reg x])
  | .ldStVx x => (.ld, [.regSt, .reg x])
  | .addIVx x => (.add, [.regI, .reg x])
  | .ldF x => (.ld, [.font, .reg x])
  | .bcd x => (.ld, [.digits, .reg x])
  | .storeRegs x => (.ld, [.atI, .reg x])
  | .loadRegs x => (.ld, [.reg x, .atI])

end Sys2Proof.Machine
end

