-- ==== Sys2Proof/Machine/Boot.lean ====
section
/-! DEFINITION. Boot (70_reset_and_hazards.md section 2): the font, the program image, and the state a
session starts in, for every value of the parameters and of what the spec leaves open at reset. -/

namespace Sys2Proof.Machine

/-- Write bytes at consecutive ascending addresses. -/
def Memory.writeAll (m : Memory) (a : Nat) : List Byte → Memory
  | [] => m
  | b :: bs => (m.write a b).writeAll (a + 1) bs

/-- `load(image)`: from PROGRAM_START up, truncated silently to the 3584 bytes that fit (R262). -/
def Memory.load (m : Memory) (image : List Byte) : Memory :=
  m.writeAll Config.programStart (image.take (Config.memSize - Config.programStart))

/-- The parameters of a session and what the spec leaves open at its start: FONT (R8), STACK_DEPTH (R10),
`changed` at reset (R42), and what the host will do (R256). -/
structure BootParams where
  font : Vector Byte Config.fontSize
  stackDepth : Option Nat
  changed : Bool
  host : List Transaction
deriving DecidableEq, Repr

/-- The state at the start of a session that loads `image` (R260, R261): the font first, then the image;
the display, the keyboard and the CPU as at reset. -/
def State.start (p : BootParams) (image : List Byte) : State :=
  { State.reset with
    mem := (Memory.writeAll [] Config.fontBase p.font.toList).load image
    stackDepth := p.stackDepth
    changed := p.changed
    host := p.host }

/-- Boot (R261). A program source that cannot be read (`none`) starts no session (R263). -/
def powerOn (p : BootParams) (image : Option (List Byte)) : Option State := image.map (State.start p)

end Sys2Proof.Machine
end

