-- ==== Sys2Proof/Safety.lean ====
section
/-! DEFINITION. The terms that claims are stated in: frames, the session across a fatal fault, the states a
session can reach, and the invariant that every step keeps. -/

namespace Sys2Proof

/-- The instructions that write the V register `j` (the table of R21): Vx; V0 to Vx; and VF as a flag. -/
def Instr.writesV (i : Instr) (j : Nibble) : Bool :=
  match i with
  | .ldImm x _ | .addImm x _ | .ldReg x _ | .orReg x _ | .andReg x _ | .xorReg x _ | .rnd x _
  | .ldVxDt x | .ldVxK x => j == x
  | .addReg x _ | .sub x _ | .subn x _ | .shr x _ | .shl x _ => j == x || j == Machine.vf
  | .drw _ _ _ => j == Machine.vf
  | .loadRegs x => decide (j.toNat ≤ x.toNat)
  | _ => false

/-- The instructions that write PC (R106): the six skips, JP, CALL, JP V0 and RET. -/
def Instr.writesPc : Instr → Bool
  | .seImm _ _ | .sneImm _ _ | .seReg _ _ | .sneReg _ _ | .skp _ | .sknp _
  | .jp _ | .call _ | .jpV0 _ | .ret => true
  | _ => false

/-- The instructions that read the keyboard: Ex9E, ExA1 and Fx0A (R32). -/
def Instr.readsKeys : Instr → Bool
  | .skp _ | .sknp _ | .ldVxK _ => true
  | _ => false

end Sys2Proof

namespace Sys2Proof.Machine

/-- The parts of the state, other than V registers, that an instruction may write (R104). -/
inductive Part where
  | i | pc | stack | dt | st | mode | mem | pix | changed | draws | reports
deriving DecidableEq, Repr

/-- From `s` to `t` nothing changed but, possibly, the V registers `regs` and the parts `parts`. Memory is
compared by reading every byte, the display by reading every pixel. An instruction never writes the keys,
the fatal record, the parameter STACK_DEPTH or the host's list (R32, R104). -/
structure ChangesOnly (regs : List Nibble) (parts : List Part) (s t : State) : Prop where
  v : ∀ j, j ∉ regs → t.getV j = s.getV j
  i : Part.i ∉ parts → t.i = s.i
  pc : Part.pc ∉ parts → t.pc = s.pc
  stack : Part.stack ∉ parts → t.stack = s.stack
  dt : Part.dt ∉ parts → t.dt = s.dt
  st : Part.st ∉ parts → t.st = s.st
  mode : Part.mode ∉ parts → t.mode = s.mode
  mem : Part.mem ∉ parts → ∀ a, t.mem.read a = s.mem.read a
  pix : Part.pix ∉ parts → ∀ x y, t.pixel x y = s.pixel x y
  changed : Part.changed ∉ parts → t.changed = s.changed
  draws : Part.draws ∉ parts → t.draws = s.draws
  reports : Part.reports ∉ parts → t.reports = s.reports
  keys : t.keys = s.keys
  fatal : t.fatal = s.fatal
  stackDepth : t.stackDepth = s.stackDepth
  host : t.host = s.host

/-- The word that the fetch at PC forms, high byte first (R57). -/
def State.wordAtPc (s : State) : Word :=
  wordOfBytes (s.mem.read s.pc.toNat) (s.mem.read (s.pc.toNat + 1))

/-- The next transaction of the session is a `cpu_step`, and `rest` is what the host does after it. -/
def State.cpuStepNext (s : State) (rest : List Transaction) : Prop :=
  (s.host = [] ∧ rest = []) ∨ s.host = .cpuStep :: rest

/-- A `cpu_step` of this state fetches: the session has not ended, the CPU waits for no key, and both bytes
of the word lie in memory (R100, R102). -/
def State.fetches (s : State) : Prop :=
  s.fatal = none ∧ s.mode = .normal ∧ s.pc.toNat + 1 < Config.memSize

/-- One transaction of a session, fatal faults included (R235, R236, log 19). After a fatal fault the
registers, the memory and the display may hold anything; the record is written; what no `cpu_step` writes
is as it was. -/
inductive SessionStep (t : Transaction) (s : State) : State → Prop where
  | goesOn {s' : State} (h : transact t s = .next s') : SessionStep t s s'
  | ends {s' : State} {r : Fault} (h : transact t s = .fault r) (hf : s'.fatal = some r)
      (hk : s'.keys = s.keys) (hd : s'.stackDepth = s.stackDepth) (hh : s'.host = s.host) :
      SessionStep t s s'

/-- STACK_DEPTH is unbounded or a positive number (R10). -/
def legalDepth : Option Nat → Prop
  | none => True
  | some d => 0 < d

/-- The states a session can be in before a fatal fault, for every image, every value of the parameters
and every order of the host's transactions. -/
inductive Reachable : State → Prop where
  | start (p : BootParams) (image : List Byte) (h : legalDepth p.stackDepth) :
      Reachable (State.start p image)
  | step {s s' : State} (h : Reachable s) (hs : step s = .next s') : Reachable s'

/-- The invariant of the machine: memory is canonical and inside its 4096 bytes; PC stays at most at
0x10FE, the largest target of JP V0 (R124), so the fetch's increment never wraps it (R24); a return
address is at most 0x1000 (R101, R123); a bounded stack never holds more than STACK_DEPTH entries (R125). -/
structure State.Inv (s : State) : Prop where
  mem : s.mem.wf = true
  pc : s.pc.toNat ≤ 0x10FE
  stack : ∀ a ∈ s.stack, a.toNat ≤ 0x1000
  depth : legalDepth s.stackDepth
  bounded : ∀ d, s.stackDepth = some d → s.stack.length ≤ d

/-- The transaction is a `cpu_step` that fetches and runs the instruction `i`. -/
def State.runs (s : State) (t : Transaction) (i : Instr) : Prop :=
  t = .cpuStep ∧ s.fetches ∧ decode s.wordAtPc = .ok i

/-- The registers V0 to Vx (R185). -/
def registersUpTo (x : Nibble) : List Nibble := (List.range (x.toNat + 1)).map (BitVec.ofNat 4)

/-- The instruction completes, and skips exactly when `c` holds; nothing but PC changes (R110). -/
def SkipsWhen (i : Instr) (s : State) (c : Prop) : Prop :=
  (c → ∃ t, exec i s = .next t ∧ t.pc = s.pc + 2 ∧ ChangesOnly [] [.pc] s t) ∧
  (¬ c → exec i s = .next s)

/-- The lowest pressed key is `k` (R67). -/
def State.lowestKey (s : State) (k : Nibble) : Prop :=
  s.keyPressed k = true ∧ ∀ j : Nibble, j.toNat < k.toNat → s.keyPressed j = false

/-- A state without what no instruction can observe: ST, `changed`, the reports and the host's list (R27,
R31, R231). -/
def State.hide (s : State) : State := { s with st := 0, changed := false, reports := [], host := [] }

/-- An answer with its next state changed by `f`: for claims that compare two runs. -/
def mapNext (f : State → State) : Answer → Answer
  | .next s => .next (f s)
  | .fault r => .fault r
  | .refused r => .refused r

/-- The column and row of the sprite bit `j` of the sprite row `k` (R202). -/
def touches (vx vy k j : Nat) (cx cy : Nat) : Prop :=
  cx = (vx + j) % Config.width ∧ cy = (vy + k) % Config.height

/-- A set sprite bit of the `n` rows at `a` falls on the column `cx` and the row `cy` (R202). -/
def spriteCovers (m : Memory) (a n vx vy cx cy : Nat) : Prop :=
  ∃ k j, k < n ∧ j < 8 ∧ spriteBit (m.read (a + k)) j = true ∧ touches vx vy k j cx cy

end Sys2Proof.Machine
end

