-- ==== Sys2Proof/Certificates/Slice0/Obligations.lean ====
section
/-! DEFINITION. The statements for the provers, from the numbered rules of spec/. In each, `a` is the
address of the instruction and `s` the state after its fetch, so `s.pc = a + 2` (R101, R104). A statement
about one instruction names its word, its result, where it completes and its frame. -/

open Sys2Proof Sys2Proof.Machine

/-! ### Encoding (30_encoding.md) -/

/-- Decoding the word of a well-formed instruction gives the instruction back, with every operand. -/
def Obligations.DecodeOfEncodeIsTheInstruction : Prop :=
  ∀ i : Instr, i.wf = true → decode (encode i) = .ok i

/-- R84 and R85: the decoder gives every word the instruction whose row is the first that the word fits by
the mask and match columns, and that instruction's word is the word decoded; a word that fits no row is
undefined. Two rows that fit one word are the same row, but for 0x00E0 and 0x00EE, which fit SYS too. -/
def Obligations.DecodeFollowsTheOpcodeTable : Prop :=
  (∀ w : Word,
    (∃ i, decode w = .ok i ∧ i.wf = true ∧ tableName w = some i.name ∧ encode i = w) ∨
    (decode w = .error (.undefinedWord w) ∧ tableName w = none)) ∧
  (∀ w : Word, ∀ r ∈ opcodeRows, ∀ r' ∈ opcodeRows, r.fits w = true → r'.fits w = true →
    r = r' ∨ w = 0x00E0 ∨ w = 0x00EE)

/-- The table of R86, row by row: which words are undefined. (R86's total of 17,488 words is not part of
this statement.) -/
def Obligations.UndefinedWordsAreThoseOfTheTable : Prop :=
  ∀ w : Word,
    decode w = .error (.undefinedWord w) ↔
      (w.toNat / 4096 = 0x5 ∧ w.toNat % 16 ≠ 0) ∨
      (w.toNat / 4096 = 0x8 ∧ w.toNat % 16 ∈ [0x8, 0x9, 0xA, 0xB, 0xC, 0xD, 0xF]) ∨
      (w.toNat / 4096 = 0x9 ∧ w.toNat % 16 ≠ 0) ∨
      (w.toNat / 4096 = 0xE ∧ w.toNat % 256 ∉ [0x9E, 0xA1]) ∨
      (w.toNat / 4096 = 0xF ∧
        w.toNat % 256 ∉ [0x07, 0x0A, 0x15, 0x18, 0x1E, 0x29, 0x33, 0x55, 0x65])

/-- Words written out from R85 and the rules' examples decode to the instructions they stand for. -/
def Obligations.ExampleWordsDecode : Prop :=
  decode 0x00E0 = .ok .cls ∧ decode 0x00EE = .ok .ret ∧ decode 0x0EEE = .ok (.sys 0xEEE) ∧
  decode 0x1ABC = .ok (.jp 0xABC) ∧ decode 0x3312 = .ok (.seImm 3 0x12) ∧
  decode 0x8F14 = .ok (.addReg 0xF 1) ∧ decode 0xC30F = .ok (.rnd 3 0x0F) ∧
  decode 0xD125 = .ok (.drw 1 2 5) ∧ decode 0xE2A1 = .ok (.sknp 2) ∧
  decode 0xF155 = .ok (.storeRegs 1) ∧ decode 0x5121 = .error (.undefinedWord 0x5121)

/-- The assembler takes the spec's syntax of every well-formed instruction back to the instruction, and
the omitted `Vy` of a shift is V0. Rests on R89 and R90, whose spellings the spec marks as its own
(decision D12), on tokens (log 21). -/
def Obligations.AssemblerReadsTheSyntaxBack : Prop :=
  (∀ i : Instr, i.wf = true → assemble (syntaxOf i).1 (syntaxOf i).2 = some i) ∧
  (∀ x : Nibble, assemble .shr [.reg x] = some (.shr x 0) ∧ assemble .shl [.reg x] = some (.shl x 0) ∧
    assemble .ld [.regI, .fontOf x] = some (.ldF x) ∧ assemble .bcd [.reg x] = some (.bcd x)) ∧
  (∀ nnn : Addr, assemble .jp [.v0Plus nnn.toNat] = some (.jpV0 nnn))

/-! ### The cycle (40_cycle.md) -/

/-- Where the next transaction is a `cpu_step` that fetches, and the word at PC decodes to an instruction,
the step is that instruction's meaning in the state whose PC has moved past the word. -/
def Obligations.StepRunsTheDecodedInstruction : Prop :=
  ∀ (s : State) (rest : List Transaction) (i : Instr),
    s.cpuStepNext rest → s.fetches → decode s.wordAtPc = .ok i →
    step s = exec i ({ s with host := rest }.setPc (s.pc + 2))

/-- R105: an undefined word is reported with its address, PC is left as the fetch advanced it, and nothing
else changes. -/
def Obligations.UndefinedWordIsReportedAndSkipped : Prop :=
  ∀ (s : State) (rest : List Transaction) (w : Word),
    s.cpuStepNext rest → s.fetches → s.wordAtPc = w → decode w = .error (.undefinedWord w) →
    ∃ t, step s = .next t ∧
      t.reports = s.reports ++ [⟨.undefinedInstruction, s.pc, w⟩] ∧ t.pc = s.pc + 2 ∧
      ChangesOnly [] [.pc, .reports] { s with host := rest } t

/-- A fetch at 4096 or more faults at PC, and a fetch at 0xFFF faults at 0x1000, with nothing executed.
R102 is marked by the spec as derived (from R101 and R53). -/
def Obligations.FetchOutsideMemoryFaults : Prop :=
  ∀ s : State, s.fatal = none → s.mode = .normal →
    (4096 ≤ s.pc.toNat → cpuStep s = .fault (.memoryOutOfBounds s.pc.toNat)) ∧
    (s.pc.toNat = 0xFFF → cpuStep s = .fault (.memoryOutOfBounds 0x1000))

/-- A CPU that waits for V[x] polls once: with no key pressed nothing changes; with the lowest pressed key k
it writes k to V[x] and the mode is Normal, and PC stays. Rests on the spec's decision D22 (R108). -/
def Obligations.AwaitingCpuPollsTheKeyboard : Prop :=
  ∀ (s : State) (x : Nibble), s.fatal = none → s.mode = .awaitKey x →
    ((∀ k, s.keyPressed k = false) → cpuStep s = .next s) ∧
    (∀ k, s.lowestKey k → ∃ t, cpuStep s = .next t ∧ (t.getV x).toNat = k.toNat ∧ t.mode = .normal ∧
      ChangesOnly [x] [.mode] s t)

/-- A fatal fault writes the record; after it `cpu_step` and `timer_tick` have no effect, no transaction
clears the record, and the display can still be read. Rests on the spec's decision D24 (R235, log 19). -/
def Obligations.FatalFaultEndsTheSession : Prop :=
  (∀ (tr : Transaction) (s t : State) (r : Fault),
    transact tr s = .fault r → SessionStep tr s t → t.fatal = some r) ∧
  (∀ (s : State) (r : Fault), s.fatal = some r →
    cpuStep s = .next s ∧ timerTick s = s ∧ transact .displayRead s = .next s) ∧
  (∀ (tr : Transaction) (s t : State) (r : Fault),
    s.fatal = some r → SessionStep tr s t → t.fatal = some r)

/-- A `cpu_step` emits at most one report, and a step that emits one changes nothing else but PC, which is
left as the fetch advanced it: R233's "After a report the step completes normally". -/
def Obligations.ReportingStepDoesNothingElse : Prop :=
  ∀ s t : State, cpuStep s = .next t → t.reports ≠ s.reports →
    (∃ r : Report, t.reports = s.reports ++ [r] ∧ r.addr = s.pc ∧ r.word = s.wordAtPc) ∧
    t.pc = s.pc + 2 ∧ ChangesOnly [] [.pc, .reports] s t

/-! ### Control transfer (41_flow.md) -/

/-- R120: RET pops PC from the stack; on an empty stack it reports the underflow and changes nothing. -/
def Obligations.RetPopsOrReportsUnderflow : Prop :=
  decode 0x00EE = .ok .ret ∧
  ∀ (s : State) (a : Word), s.pc = a + 2 →
    (∀ b rest, s.stack = b :: rest → ∃ t, exec .ret s = .next t ∧ t.pc = b ∧ t.stack = rest ∧
      ChangesOnly [] [.pc, .stack] s t) ∧
    (s.stack = [] → ∃ t, exec .ret s = .next t ∧
      t.reports = s.reports ++ [⟨.stackUnderflow, a, 0x00EE⟩] ∧ ChangesOnly [] [.reports] s t)

/-- R121: SYS nnn reports and does nothing else. -/
def Obligations.SysReportsAndDoesNothing : Prop :=
  ∀ nnn : Addr, nnn ≠ 0x0E0 → nnn ≠ 0x0EE →
    decode (0x0#4 ++ nnn) = .ok (.sys nnn) ∧
    ∀ (s : State) (a : Word), s.pc = a + 2 → ∃ t, exec (.sys nnn) s = .next t ∧
      t.reports = s.reports ++ [⟨.sysUnsupported, a, 0x0#4 ++ nnn⟩] ∧ ChangesOnly [] [.reports] s t

/-- R122: JP nnn sets PC to nnn. -/
def Obligations.JpSetsPc : Prop :=
  ∀ nnn : Addr, decode (0x1#4 ++ nnn) = .ok (.jp nnn) ∧
    ∀ s : State, ∃ t, exec (.jp nnn) s = .next t ∧ t.pc.toNat = nnn.toNat ∧ ChangesOnly [] [.pc] s t

/-- JP V0, nnn sets PC to the sum of V0 and nnn, never masked. The absence of a mask is marked by the spec
as derived (R124). -/
def Obligations.JpV0AddsTheOffset : Prop :=
  ∀ nnn : Addr, decode (0xB#4 ++ nnn) = .ok (.jpV0 nnn) ∧
    ∀ s : State, ∃ t, exec (.jpV0 nnn) s = .next t ∧ t.pc.toNat = (s.getV 0).toNat + nnn.toNat ∧
      ChangesOnly [] [.pc] s t

/-- CALL nnn pushes the post-fetch PC and jumps; on a bounded stack that is full it raises STACK_OVERFLOW
with its own address. The overflow is the spec's decision D4 (R125). -/
def Obligations.CallPushesTheReturnAddress : Prop :=
  ∀ nnn : Addr, decode (0x2#4 ++ nnn) = .ok (.call nnn) ∧
    ∀ (s : State) (a : Word), s.pc = a + 2 →
      ((∀ d, s.stackDepth = some d → s.stack.length ≠ d) →
        ∃ t, exec (.call nnn) s = .next t ∧ t.stack = (a + 2) :: s.stack ∧ t.pc.toNat = nnn.toNat ∧
          ChangesOnly [] [.pc, .stack] s t) ∧
      (∀ d, s.stackDepth = some d → s.stack.length = d → exec (.call nnn) s = .fault (.stackOverflow a))

/-- A RET right after a CALL goes back to the instruction after the CALL with the stack as it was (the
worked example W4). -/
def Obligations.RetAfterCallReturns : Prop :=
  ∀ (nnn : Addr) (s t t' : State), exec (.call nnn) s = .next t → t'.stack = t.stack →
    ∃ u, exec .ret t' = .next u ∧ u.pc = s.pc ∧ u.stack = s.stack

/-! ### Skips (42_skips.md) -/

/-- R110 and R140 to R143: each skip instruction on registers moves PC past one more 2-byte slot exactly
when its comparison holds, and changes nothing else. -/
def Obligations.RegisterSkipsCompare : Prop :=
  (∀ (x : Nibble) (kk : Byte),
    decode (0x3#4 ++ x ++ kk) = .ok (.seImm x kk) ∧ decode (0x4#4 ++ x ++ kk) = .ok (.sneImm x kk) ∧
    ∀ s, SkipsWhen (.seImm x kk) s (s.getV x = kk) ∧ SkipsWhen (.sneImm x kk) s (s.getV x ≠ kk)) ∧
  (∀ x y : Nibble,
    decode (0x5#4 ++ x ++ y ++ 0x0#4) = .ok (.seReg x y) ∧
    decode (0x9#4 ++ x ++ y ++ 0x0#4) = .ok (.sneReg x y) ∧
    ∀ s, SkipsWhen (.seReg x y) s (s.getV x = s.getV y) ∧
      SkipsWhen (.sneReg x y) s (s.getV x ≠ s.getV y))

/-! ### Register instructions (43_alu.md) -/

/-- R150 and R152: LD Vx, kk and LD Vx, Vy write Vx and nothing else. -/
def Obligations.LoadsWriteVx : Prop :=
  (∀ (x : Nibble) (kk : Byte), decode (0x6#4 ++ x ++ kk) = .ok (.ldImm x kk) ∧
    ∀ s, ∃ t, exec (.ldImm x kk) s = .next t ∧ t.getV x = kk ∧ ChangesOnly [x] [] s t) ∧
  (∀ x y : Nibble, decode (0x8#4 ++ x ++ y ++ 0x0#4) = .ok (.ldReg x y) ∧
    ∀ s, ∃ t, exec (.ldReg x y) s = .next t ∧ t.getV x = s.getV y ∧ ChangesOnly [x] [] s t)

/-- R151: ADD Vx, kk adds modulo 256 and writes no flag. -/
def Obligations.AddImmediateWrapsWithoutFlag : Prop :=
  ∀ (x : Nibble) (kk : Byte), decode (0x7#4 ++ x ++ kk) = .ok (.addImm x kk) ∧
    ∀ s, ∃ t, exec (.addImm x kk) s = .next t ∧
      (t.getV x).toNat = ((s.getV x).toNat + kk.toNat) % 256 ∧ ChangesOnly [x] [] s t

/-- OR, AND and XOR work bit by bit and leave VF as it was, unless x = F. That VF is not reset is the
spec's decision D17 (R153 to R155). -/
def Obligations.LogicWorksBitwiseWithoutFlag : Prop :=
  ∀ x y : Nibble,
    decode (0x8#4 ++ x ++ y ++ 0x1#4) = .ok (.orReg x y) ∧
    decode (0x8#4 ++ x ++ y ++ 0x2#4) = .ok (.andReg x y) ∧
    decode (0x8#4 ++ x ++ y ++ 0x3#4) = .ok (.xorReg x y) ∧
    ∀ s : State,
      (∃ t, exec (.orReg x y) s = .next t ∧ ChangesOnly [x] [] s t ∧
        ∀ k, (t.getV x).getLsbD k = ((s.getV x).getLsbD k || (s.getV y).getLsbD k)) ∧
      (∃ t, exec (.andReg x y) s = .next t ∧ ChangesOnly [x] [] s t ∧
        ∀ k, (t.getV x).getLsbD k = ((s.getV x).getLsbD k && (s.getV y).getLsbD k)) ∧
      (∃ t, exec (.xorReg x y) s = .next t ∧ ChangesOnly [x] [] s t ∧
        ∀ k, (t.getV x).getLsbD k = ((s.getV x).getLsbD k ^^ (s.getV y).getLsbD k))

/-- ADD Vx, Vy writes the sum modulo 256 to Vx and then the carry to VF, so with x = F the carry stands.
The flag and the order of the writes are the spec's decisions D13 and D15 (R156). -/
def Obligations.AddRegisterSetsTheCarry : Prop :=
  ∀ x y : Nibble, decode (0x8#4 ++ x ++ y ++ 0x4#4) = .ok (.addReg x y) ∧
    ∀ s : State, ∃ t, exec (.addReg x y) s = .next t ∧
      (x ≠ 0xF → (t.getV x).toNat = ((s.getV x).toNat + (s.getV y).toNat) % 256) ∧
      (t.getV 0xF).toNat = (if (s.getV x).toNat + (s.getV y).toNat > 0xFF then 1 else 0) ∧
      ChangesOnly [x, 0xF] [] s t

/-- SUB and SUBN write the difference modulo 256 to Vx and then not-borrow to VF. The flag and the order of
the writes are the spec's decisions D14 and D15 (R157, R159). -/
def Obligations.SubtractSetsNotBorrow : Prop :=
  ∀ x y : Nibble,
    decode (0x8#4 ++ x ++ y ++ 0x5#4) = .ok (.sub x y) ∧
    decode (0x8#4 ++ x ++ y ++ 0x7#4) = .ok (.subn x y) ∧
    ∀ s : State,
      (∃ t, exec (.sub x y) s = .next t ∧
        (x ≠ 0xF → (t.getV x).toNat = ((s.getV x).toNat + 256 - (s.getV y).toNat) % 256) ∧
        (t.getV 0xF).toNat = (if (s.getV x).toNat ≥ (s.getV y).toNat then 1 else 0) ∧
        ChangesOnly [x, 0xF] [] s t) ∧
      (∃ t, exec (.subn x y) s = .next t ∧
        (x ≠ 0xF → (t.getV x).toNat = ((s.getV y).toNat + 256 - (s.getV x).toNat) % 256) ∧
        (t.getV 0xF).toNat = (if (s.getV y).toNat ≥ (s.getV x).toNat then 1 else 0) ∧
        ChangesOnly [x, 0xF] [] s t)

/-- SHR and SHL write the bit shifted out to VF and then the shifted register, whatever y is; with x = F the
second write reads what the first left. That case is the spec's decision D16 (R158, R160). -/
def Obligations.ShiftsWriteTheFlagFirst : Prop :=
  ∀ x y : Nibble,
    decode (0x8#4 ++ x ++ y ++ 0x6#4) = .ok (.shr x y) ∧
    decode (0x8#4 ++ x ++ y ++ 0xE#4) = .ok (.shl x y) ∧
    ∀ s : State,
      (∃ t, exec (.shr x y) s = .next t ∧
        (x ≠ 0xF → (t.getV x).toNat = (s.getV x).toNat / 2 ∧
          (t.getV 0xF).toNat = (s.getV x).toNat % 2) ∧
        (x = 0xF → t.getV 0xF = 0) ∧ ChangesOnly [x, 0xF] [] s t) ∧
      (∃ t, exec (.shl x y) s = .next t ∧
        (x ≠ 0xF → (t.getV x).toNat = (s.getV x).toNat * 2 % 256 ∧
          (t.getV 0xF).toNat = (s.getV x).toNat / 128) ∧
        (x = 0xF → t.getV 0xF = if (s.getV 0xF).toNat ≥ 128 then 2 else 0) ∧
        ChangesOnly [x, 0xF] [] s t)

/-- R161: RND writes the draw masked by kk, so no bit outside kk is set; each execution takes one draw. The
draw is the free value `Config.randomByte` (log 2). -/
def Obligations.RndMasksTheDraw : Prop :=
  ∀ (x : Nibble) (kk : Byte), decode (0xC#4 ++ x ++ kk) = .ok (.rnd x kk) ∧
    ∀ s : State, ∃ t, exec (.rnd x kk) s = .next t ∧ t.getV x = (Config.randomByte s.draws &&& kk) ∧
      t.getV x &&& ~~~kk = 0 ∧ t.draws = s.draws + 1 ∧ ChangesOnly [x] [.draws] s t

/-! ### The address register and memory (44_index_memory.md) -/

/-- R180 and R182: LD I, nnn and LD F, Vx write I, the latter with five times Vx, not masked. -/
def Obligations.IndexLoadsWriteI : Prop :=
  (∀ nnn : Addr, decode (0xA#4 ++ nnn) = .ok (.ldI nnn) ∧
    ∀ s, ∃ t, exec (.ldI nnn) s = .next t ∧ t.i.toNat = nnn.toNat ∧ ChangesOnly [] [.i] s t) ∧
  (∀ x : Nibble, decode (0xF#4 ++ x ++ 0x29#8) = .ok (.ldF x) ∧
    ∀ s, ∃ t, exec (.ldF x) s = .next t ∧ t.i.toNat = (s.getV x).toNat * 5 ∧ ChangesOnly [] [.i] s t)

/-- ADD I, Vx adds modulo 2^16 and writes no flag: the spec's decision D19 (R181). -/
def Obligations.AddToIndexWrapsWithoutFlag : Prop :=
  ∀ x : Nibble, decode (0xF#4 ++ x ++ 0x1E#8) = .ok (.addIVx x) ∧
    ∀ s : State, ∃ t, exec (.addIVx x) s = .next t ∧
      t.i.toNat = (s.i.toNat + (s.getV x).toNat) % 65536 ∧ ChangesOnly [] [.i] s t

/-- LD B, Vx stores the hundreds, tens and units of Vx at I, I+1, I+2 and nothing else; it faults at the
first of the three addresses outside memory. I is unchanged: the spec's decision D20 (R183, R186). -/
def Obligations.BcdStoresTheDigits : Prop :=
  ∀ x : Nibble, decode (0xF#4 ++ x ++ 0x33#8) = .ok (.bcd x) ∧
    ∀ s : State,
      (s.i.toNat + 3 ≤ 4096 → ∃ t, exec (.bcd x) s = .next t ∧
        (t.mem.read s.i.toNat).toNat = (s.getV x).toNat / 100 ∧
        (t.mem.read (s.i.toNat + 1)).toNat = (s.getV x).toNat / 10 % 10 ∧
        (t.mem.read (s.i.toNat + 2)).toNat = (s.getV x).toNat % 10 ∧
        (∀ c, c < s.i.toNat ∨ s.i.toNat + 3 ≤ c → t.mem.read c = s.mem.read c) ∧
        ChangesOnly [] [.mem] s t) ∧
      (4096 < s.i.toNat + 3 → exec (.bcd x) s = .fault (.memoryOutOfBounds (max s.i.toNat 4096)))

/-- LD [I], Vx stores V0 to Vx at I to I+x and nothing else; it faults at the first address outside memory.
I is unchanged: the spec's decision D20 (R184). -/
def Obligations.StoreRegistersWritesMemory : Prop :=
  ∀ x : Nibble, decode (0xF#4 ++ x ++ 0x55#8) = .ok (.storeRegs x) ∧
    ∀ s : State,
      (s.i.toNat + x.toNat < 4096 → ∃ t, exec (.storeRegs x) s = .next t ∧
        (∀ k : Nibble, k.toNat ≤ x.toNat → t.mem.read (s.i.toNat + k.toNat) = s.getV k) ∧
        (∀ c, c < s.i.toNat ∨ s.i.toNat + x.toNat < c → t.mem.read c = s.mem.read c) ∧
        ChangesOnly [] [.mem] s t) ∧
      (4096 ≤ s.i.toNat + x.toNat →
        exec (.storeRegs x) s = .fault (.memoryOutOfBounds (max s.i.toNat 4096)))

/-- LD Vx, [I] loads V0 to Vx from I to I+x and nothing else; it faults at the first address outside
memory. I is unchanged: the spec's decision D20 (R185). -/
def Obligations.LoadRegistersReadsMemory : Prop :=
  ∀ x : Nibble, decode (0xF#4 ++ x ++ 0x65#8) = .ok (.loadRegs x) ∧
    ∀ s : State,
      (s.i.toNat + x.toNat < 4096 → ∃ t, exec (.loadRegs x) s = .next t ∧
        (∀ k : Nibble, t.getV k =
          if k.toNat ≤ x.toNat then s.mem.read (s.i.toNat + k.toNat) else s.getV k) ∧
        ChangesOnly (registersUpTo x) [] s t) ∧
      (4096 ≤ s.i.toNat + x.toNat →
        exec (.loadRegs x) s = .fault (.memoryOutOfBounds (max s.i.toNat 4096)))

/-- Loading the registers that were stored gives their values back: LD Vx, [I] undoes LD [I], Vx wherever I
and memory are as the store left them. That the store leaves I as it was, so that the load reads what was
stored, is the spec's decision D20 (R184, R185; log 12). -/
def Obligations.LoadAfterStoreRestoresTheRegisters : Prop :=
  ∀ (x : Nibble) (s t u : State), exec (.storeRegs x) s = .next t → u.i = t.i → u.mem = t.mem →
    ∃ w, exec (.loadRegs x) u = .next w ∧ ∀ k : Nibble, k.toNat ≤ x.toNat → w.getV k = s.getV k

/-- A word stored over the next instruction is the word that the next fetch reads. Marked by the spec as
derived (R71, R271). -/
def Obligations.StoredWordIsFetchedNext : Prop :=
  ∀ (x : Nibble) (s t : State), exec (.storeRegs x) s = .next t → 1 ≤ x.toNat →
    s.i.toNat = s.pc.toNat → t.wordAtPc = s.getV 0 ++ s.getV 1

/-! ### Memory (20_memory.md) -/

/-- R51 and R52: inside memory a write sets the byte, which the next read gives, and leaves every other
byte and all other state; outside, both raise the fault. -/
def Obligations.MemoryReadsWhatWasWritten : Prop :=
  (∀ (s : State) (a : Nat), a < 4096 →
    s.memRead a = .ok (s.mem.read a) ∧
    ∀ b : Byte, ∃ t, s.memWrite a b = .ok t ∧ t.memRead a = .ok b ∧
      (∀ c, c ≠ a → t.memRead c = s.memRead c) ∧ ChangesOnly [] [.mem] s t) ∧
  (∀ (s : State) (a : Nat), 4096 ≤ a →
    s.memRead a = .error (.memoryOutOfBounds a) ∧
    ∀ b : Byte, s.memWrite a b = .error (.memoryOutOfBounds a))

/-- Memories in canonical form that read alike at every address are the same list (the model's own form of
R33). -/
def Obligations.CanonicalMemoriesThatReadAlikeAreEqual : Prop :=
  ∀ m m' : Memory, m.wf = true → m'.wf = true → (∀ a, m.read a = m'.read a) → m = m'

/-! ### Display (45_display.md) -/

/-- R200: CLS clears every pixel and sets `changed`. -/
def Obligations.ClsClearsTheDisplay : Prop :=
  decode 0x00E0 = .ok .cls ∧
  ∀ s : State, ∃ t, exec .cls s = .next t ∧ (∀ x y, t.pixel x y = false) ∧ t.changed = true ∧
    ChangesOnly [] [.pix, .changed] s t

/-- DRW toggles exactly the pixels that a set sprite bit falls on, at wrapped coordinates, sets VF to 1
exactly when one of them was lit, and sets `changed` exactly when it draws a row; it faults at the first
row outside memory. Wrapping is the spec's decision D6, and that DRW sets `changed` is its decision D7 (R31,
R62; log 12); the bounds 64 and 32 are the model's choice of W and H (log 7); the closed form is marked as
derived (R201, R202, R204). -/
def Obligations.DrwXorsTheSprite : Prop :=
  ∀ x y n : Nibble, decode (0xD#4 ++ x ++ y ++ n) = .ok (.drw x y n) ∧
    ∀ s : State,
      (n = 0 ∨ s.i.toNat + n.toNat ≤ 4096 → ∃ t, exec (.drw x y n) s = .next t ∧
        (∀ cx cy, cx < 64 → cy < 32 →
          (spriteCovers s.mem s.i.toNat n.toNat (s.getV x).toNat (s.getV y).toNat cx cy →
            t.pixel cx cy = !s.pixel cx cy) ∧
          (¬ spriteCovers s.mem s.i.toNat n.toNat (s.getV x).toNat (s.getV y).toNat cx cy →
            t.pixel cx cy = s.pixel cx cy)) ∧
        (t.getV 0xF = 1 ∨ t.getV 0xF = 0) ∧
        (t.getV 0xF = 1 ↔ ∃ cx cy, cx < 64 ∧ cy < 32 ∧ s.pixel cx cy = true ∧
          spriteCovers s.mem s.i.toNat n.toNat (s.getV x).toNat (s.getV y).toNat cx cy) ∧
        t.changed = (if n = 0 then s.changed else true) ∧
        ChangesOnly [0xF] [.pix, .changed] s t) ∧
      (n ≠ 0 → 4096 < s.i.toNat + n.toNat →
        exec (.drw x y n) s = .fault (.memoryOutOfBounds (max s.i.toNat 4096)))

/-- Drawing the same sprite twice, its coordinates in registers other than VF, restores every pixel; where
the display was clear before, the second drawing collides exactly when the sprite has a set bit (the worked
example W5, for every sprite). Where the sprite passes an edge this rests on the spec's decision D6
(wrapping), and the second drawing finds the sprite at the same I by its decision D20 (log 12). With x or y
= F the second drawing may take another coordinate; DrwXorsTheSprite states what each drawing does then. -/
def Obligations.DrawingTwiceRestoresTheDisplay : Prop :=
  ∀ (x y n : Nibble) (s t : State), x ≠ 0xF → y ≠ 0xF → exec (.drw x y n) s = .next t →
    ∃ u, exec (.drw x y n) t = .next u ∧ (∀ cx cy, u.pixel cx cy = s.pixel cx cy) ∧
      ((∀ cx cy, s.pixel cx cy = false) →
        (u.getV 0xF = 1 ↔
          ∃ cx cy, spriteCovers s.mem s.i.toNat n.toNat (s.getV x).toNat (s.getV y).toNat cx cy))

/-! ### Timers and keys (46_timers_keys.md, 60_exceptions.md) -/

/-- R210 to R212: LD Vx, DT reads the delay timer; LD DT, Vx and LD ST, Vx set the timers. -/
def Obligations.TimerInstructionsMoveTheTimers : Prop :=
  ∀ x : Nibble,
    decode (0xF#4 ++ x ++ 0x07#8) = .ok (.ldVxDt x) ∧
    decode (0xF#4 ++ x ++ 0x15#8) = .ok (.ldDtVx x) ∧
    decode (0xF#4 ++ x ++ 0x18#8) = .ok (.ldStVx x) ∧
    ∀ s : State,
      (∃ t, exec (.ldVxDt x) s = .next t ∧ t.getV x = s.dt ∧ ChangesOnly [x] [] s t) ∧
      (∃ t, exec (.ldDtVx x) s = .next t ∧ t.dt = s.getV x ∧ ChangesOnly [] [.dt] s t) ∧
      (∃ t, exec (.ldStVx x) s = .next t ∧ t.st = s.getV x ∧ ChangesOnly [] [.st] s t)

/-- SKP and SKNP skip by the level of the key that Vx names; an index of 16 or more faults without a skip.
That fault is the spec's decision D21 (R213, R214, R216). -/
def Obligations.KeySkipsReadTheKey : Prop :=
  ∀ x : Nibble,
    decode (0xE#4 ++ x ++ 0x9E#8) = .ok (.skp x) ∧ decode (0xE#4 ++ x ++ 0xA1#8) = .ok (.sknp x) ∧
    ∀ s : State,
      (∀ k : Nibble, (s.getV x).toNat = k.toNat →
        SkipsWhen (.skp x) s (s.keyPressed k = true) ∧ SkipsWhen (.sknp x) s (s.keyPressed k = false)) ∧
      (16 ≤ (s.getV x).toNat →
        exec (.skp x) s = .fault (.keyIndexOutOfRange (s.getV x)) ∧
        exec (.sknp x) s = .fault (.keyIndexOutOfRange (s.getV x)))

/-- LD Vx, K writes the lowest pressed key to Vx, or else enters the wait for Vx. Level and lowest index are
the spec's decision D22 (R215). -/
def Obligations.WaitForKeyTakesTheLowestKeyOrWaits : Prop :=
  ∀ x : Nibble, decode (0xF#4 ++ x ++ 0x0A#8) = .ok (.ldVxK x) ∧
    ∀ s : State,
      (∀ k, s.lowestKey k → ∃ t, exec (.ldVxK x) s = .next t ∧ (t.getV x).toNat = k.toNat ∧
        ChangesOnly [x] [] s t) ∧
      ((∀ k, s.keyPressed k = false) → ∃ t, exec (.ldVxK x) s = .next t ∧ t.mode = .awaitKey x ∧
        ChangesOnly [] [.mode] s t)

/-- R241: a timer tick takes one from each timer, floored at 0, while the session lasts, and nothing else;
after a fatal fault it does nothing. -/
def Obligations.TimerTickDecrementsWithAFloor : Prop :=
  ∀ s : State,
    (s.fatal = none →
      (timerTick s).dt.toNat = s.dt.toNat - 1 ∧ (timerTick s).st.toNat = s.st.toNat - 1 ∧
      ChangesOnly [] [.dt, .st] s (timerTick s)) ∧
    (s.fatal ≠ none → timerTick s = s) ∧ transact .timerTick s = .next (timerTick s)

/-- `key_write` sets one key and nothing else (R252); `display_read` changes nothing and gives the
dimensions, every pixel and `changed` (R253); `display_ack` sets `changed` to false and nothing else (R254,
the spec's decision D7). The dimensions 64 and 32 are the model's choice of W and H (log 7), and that the
host's writes act in every state, after a fatal fault too, is the model's reading (log 17). -/
def Obligations.HostWritesKeysAndReadsTheDisplay : Prop :=
  (∀ (s : State) (k : Nibble) (l : Bool), ∃ t, transact (.keyWrite k l) s = .next t ∧
    t.keyPressed k = l ∧ (∀ j, j ≠ k → t.keyPressed j = s.keyPressed j) ∧ t = { s with keys := t.keys }) ∧
  (∀ s : State, transact .displayRead s = .next s ∧ (displayRead s).width = 64 ∧
    (displayRead s).height = 32 ∧ (displayRead s).changed = s.changed ∧
    ∀ (cx : Fin 64) (cy : Fin 32), (displayRead s).pix[cx][cy] = s.pixel cx cy) ∧
  (∀ s : State, ∃ t, transact .displayAck s = .next t ∧ t.changed = false ∧
    ChangesOnly [] [.changed] s t)

/-! ### Reset and boot (10_state.md section 7, 70_reset_and_hazards.md) -/

/-- R37, R38 and R39: at reset every V register, I and the timers are 0, PC is 0x200, the stack is empty and
the mode is Normal. -/
def Obligations.ResetClearsTheCpu : Prop :=
  ∀ s : State, s = State.reset ∨ (∃ p image, s = State.start p image) →
    (∀ j, s.getV j = 0) ∧ s.i = 0 ∧ s.pc = 0x200 ∧ s.stack = [] ∧ s.mode = .normal ∧
    s.dt = 0 ∧ s.st = 0

/-- At the start of a session the display is clear, no key is pressed and there is no fatal record. The
first two are the spec's decisions D7 and D8 (R42, R43, R44; log 22). -/
def Obligations.ResetClearsTheDevices : Prop :=
  ∀ s : State, s = State.reset ∨ (∃ p image, s = State.start p image) →
    (∀ x y, s.pixel x y = false) ∧ (∀ k, s.keyPressed k = false) ∧ s.fatal = none

/-- At the start of a session memory holds FONT, then zeros, then the image truncated to 3584 bytes, then
zeros; a source that cannot be read starts none. The zeros of 0x050 to 0x1FF are marked by the spec as
derived (R40, R262, R263). -/
def Obligations.BootLoadsTheFontAndTheImage : Prop :=
  ∀ p : BootParams,
    powerOn p none = none ∧
    ∀ image : List Byte, ∃ s, powerOn p (some image) = some s ∧
      (∀ k : Fin 80, s.mem.read k = p.font[k]) ∧
      (∀ a, 80 ≤ a → a < 0x200 → s.mem.read a = 0) ∧
      (∀ k, k < 3584 → s.mem.read (0x200 + k) = image.getD k 0)

/-! ### Invariants -/

/-- Every step that answers a next state keeps the invariant: memory stays canonical and inside its 4096
bytes, PC never passes 0x10FE and so is never wrapped by a fetch, every return address is at most 0x1000,
and a bounded stack never overflows. -/
def Obligations.EveryStepKeepsTheInvariant : Prop :=
  ∀ s t : State, s.Inv → step s = .next t → t.Inv

/-- Reset meets the invariant, and so does the start of every session with a legal STACK_DEPTH. -/
def Obligations.ResetMeetsTheInvariant : Prop :=
  State.reset.Inv ∧
  ∀ (p : BootParams) (image : List Byte), legalDepth p.stackDepth → (State.start p image).Inv

/-- Every state that a session can reach, with any image, any legal parameters and any order of the host's
transactions, meets the invariant. -/
def Obligations.ReachableStatesMeetTheInvariant : Prop := ∀ s : State, Reachable s → s.Inv

/-- No step refuses, and a step that faults does so for the reason of its kind (60_exceptions.md section 1):
an access at 4096 or more, SKP or SKNP on a key index of 16 or more, or a CALL on a full bounded stack. The
last two kinds are the spec's decisions D21 and D4 (R234; log 12, log 20). -/
def Obligations.StepsStopOnlyForTheSpecsReasons : Prop :=
  ∀ s : State,
    (∀ r, step s ≠ .refused r) ∧
    (∀ a, step s = .fault (.memoryOutOfBounds a) → 4096 ≤ a) ∧
    (∀ k, step s = .fault (.keyIndexOutOfRange k) → 16 ≤ k.toNat ∧
      ∃ x, s.getV x = k ∧ (s.runs .cpuStep (.skp x) ∨ s.runs .cpuStep (.sknp x))) ∧
    (∀ a, step s = .fault (.stackOverflow a) →
      a = s.pc ∧ s.stackDepth = some s.stack.length ∧ ∃ nnn, s.runs .cpuStep (.call nnn))

/-! ### Whole-machine rules -/

/-- Memory changes only in a `cpu_step` that runs LD B, Vx or LD [I], Vx (10_state.md section 6). -/
def Obligations.OnlyStoresWriteMemory : Prop :=
  ∀ (tr : Transaction) (s t : State), transact tr s = .next t → t.mem ≠ s.mem →
    ∃ x, s.runs tr (.bcd x) ∨ s.runs tr (.storeRegs x)

/-- The pixels change only in a `cpu_step` that runs CLS or DRW; the same alone set `changed`, and only
`display_ack` clears it (10_state.md section 6). That DRW sets `changed`, and that `display_ack` clears it,
are the spec's decision D7 (R31, R62, R254; log 12). -/
def Obligations.OnlyClsAndDrwWriteTheDisplay : Prop :=
  ∀ (tr : Transaction) (s t : State), transact tr s = .next t →
    (t.pix ≠ s.pix ∨ (s.changed = false ∧ t.changed = true) →
      s.runs tr .cls ∨ ∃ x y n, s.runs tr (.drw x y n)) ∧
    (s.changed = true → t.changed = false → tr = .displayAck)

/-- The stack changes only in a `cpu_step` that runs CALL, which adds the address after it on top, or RET,
which takes the top off (10_state.md section 3). -/
def Obligations.OnlyCallAndRetTouchTheStack : Prop :=
  ∀ (tr : Transaction) (s t : State), transact tr s = .next t → t.stack ≠ s.stack →
    (∃ nnn, s.runs tr (.call nnn) ∧ t.stack = (s.pc + 2) :: s.stack) ∨
    (s.runs tr .ret ∧ s.stack = t.pc :: t.stack)

/-- A V register changes only in a `cpu_step` that runs an instruction which the table of R21 lists as its
writer, or that ends a wait for it (10_state.md section 1). -/
def Obligations.VRegistersHaveTheListedWriters : Prop :=
  ∀ (tr : Transaction) (s t : State) (j : Nibble), transact tr s = .next t → t.getV j ≠ s.getV j →
    (∃ i, s.runs tr i ∧ i.writesV j = true) ∨ (tr = .cpuStep ∧ s.mode = .awaitKey j ∧ t.mode = .normal)

/-- I changes only in a `cpu_step` that runs LD I, nnn, ADD I, Vx or LD F, Vx (10_state.md section 3). -/
def Obligations.IHasThreeWriters : Prop :=
  ∀ (tr : Transaction) (s t : State), transact tr s = .next t → t.i ≠ s.i →
    (∃ nnn, s.runs tr (.ldI nnn)) ∨ ∃ x, s.runs tr (.addIVx x) ∨ s.runs tr (.ldF x)

/-- R106: after an instruction completes PC is the post-fetch value, unless it is a skip, JP, CALL, JP V0 or
RET; a skip leaves it there or two further; no transaction but `cpu_step` moves it. -/
def Obligations.PcHasTheListedWriters : Prop :=
  ∀ (tr : Transaction) (s t : State), transact tr s = .next t →
    (∀ i, s.runs tr i → i.writesPc = false → t.pc = s.pc + 2) ∧
    (∀ i x y kk, s.runs tr i →
      i ∈ [Instr.seImm x kk, .sneImm x kk, .seReg x y, .sneReg x y, .skp x, .sknp x] →
      t.pc = s.pc + 2 ∨ t.pc = s.pc + 4) ∧
    (tr ≠ .cpuStep → t.pc = s.pc)

/-- DT and ST change only by a tick, which takes exactly one off, or by LD DT, Vx and LD ST, Vx
(10_state.md section 4, and R272's "DT never increases except by Fx15"). -/
def Obligations.TimersHaveTheListedWriters : Prop :=
  ∀ (tr : Transaction) (s t : State), transact tr s = .next t →
    (t.dt ≠ s.dt → (tr = .timerTick ∧ t.dt.toNat + 1 = s.dt.toNat) ∨ ∃ x, s.runs tr (.ldDtVx x)) ∧
    (t.st ≠ s.st → (tr = .timerTick ∧ t.st.toNat + 1 = s.st.toNat) ∨ ∃ x, s.runs tr (.ldStVx x))

/-- The keys change only by `key_write`; STACK_DEPTH and the fatal record change by nothing that answers a
next state (10_state.md section 6). -/
def Obligations.OnlyTheHostWritesTheKeys : Prop :=
  ∀ (tr : Transaction) (s t : State), transact tr s = .next t →
    (t.keys ≠ s.keys → ∃ k l, tr = .keyWrite k l) ∧ t.stackDepth = s.stackDepth ∧ t.fatal = s.fatal

/-- The wait for a key is entered only by LD Vx, K with no key pressed, and left only by a `cpu_step` with a
key pressed (10_state.md section 5). That the wait is entered and left by the level of the keys is the spec's
decision D22 (R28, R108, R215; log 12). -/
def Obligations.OnlyTheKeyInstructionWaits : Prop :=
  ∀ (tr : Transaction) (s t : State), transact tr s = .next t →
    (∀ x, s.mode = .normal → t.mode = .awaitKey x →
      s.runs tr (.ldVxK x) ∧ ∀ k, s.keyPressed k = false) ∧
    (∀ x, s.mode = .awaitKey x → t.mode ≠ .awaitKey x →
      tr = .cpuStep ∧ t.mode = .normal ∧ ∃ k, s.keyPressed k = true)

/-! ### What instructions cannot observe -/

/-- No instruction observes ST, `changed`, the reports or the host's list: two states that differ only there
take steps that differ only there (10_state.md sections 4 and 6, 60_exceptions.md section 1). The two steps
take the same RANDOM draw, since the states have the same `draws`: the model's own, and no fact of the
hardware (log 2, log 3). -/
def Obligations.OutputsAreInvisibleToTheCpu : Prop :=
  ∀ s s' : State, s.hide = s'.hide → mapNext State.hide (cpuStep s) = mapNext State.hide (cpuStep s')

/-- Only SKP, SKNP and LD Vx, K observe the keyboard: any other instruction does the same whatever keys are
pressed (10_state.md section 6). The two runs take the same RANDOM draw, since the states have the same
`draws`: the model's own, and no fact of the hardware (log 2, log 3). -/
def Obligations.OnlyKeyInstructionsReadTheKeys : Prop :=
  ∀ (i : Instr) (s : State) (ks : Vector Bool 16), i.readsKeys = false →
    exec i { s with keys := ks } = mapNext (fun t => { t with keys := ks }) (exec i s)
end

