-- ==== Sys2Proof/Laws/State.lean ====
section
/-! SUPPORT. What each named update of the state leaves in each field: one lemma per field per update, so
that no later proof unfolds a record update. Then the laws of the V registers. -/

namespace Sys2Proof.Machine

variable (s : State)

@[simp] theorem setV_i (x : Nibble) (b : Byte) : (s.setV x b).i = s.i := rfl
@[simp] theorem setV_pc (x : Nibble) (b : Byte) : (s.setV x b).pc = s.pc := rfl
@[simp] theorem setV_stack (x : Nibble) (b : Byte) : (s.setV x b).stack = s.stack := rfl
@[simp] theorem setV_dt (x : Nibble) (b : Byte) : (s.setV x b).dt = s.dt := rfl
@[simp] theorem setV_st (x : Nibble) (b : Byte) : (s.setV x b).st = s.st := rfl
@[simp] theorem setV_mode (x : Nibble) (b : Byte) : (s.setV x b).mode = s.mode := rfl
@[simp] theorem setV_mem (x : Nibble) (b : Byte) : (s.setV x b).mem = s.mem := rfl
@[simp] theorem setV_pix (x : Nibble) (b : Byte) : (s.setV x b).pix = s.pix := rfl
@[simp] theorem setV_changed (x : Nibble) (b : Byte) : (s.setV x b).changed = s.changed := rfl
@[simp] theorem setV_keys (x : Nibble) (b : Byte) : (s.setV x b).keys = s.keys := rfl
@[simp] theorem setV_fatal (x : Nibble) (b : Byte) : (s.setV x b).fatal = s.fatal := rfl
@[simp] theorem setV_stackDepth (x : Nibble) (b : Byte) : (s.setV x b).stackDepth = s.stackDepth := rfl
@[simp] theorem setV_draws (x : Nibble) (b : Byte) : (s.setV x b).draws = s.draws := rfl
@[simp] theorem setV_reports (x : Nibble) (b : Byte) : (s.setV x b).reports = s.reports := rfl
@[simp] theorem setV_host (x : Nibble) (b : Byte) : (s.setV x b).host = s.host := rfl

@[simp] theorem setVf_i (b : Bool) : (s.setVf b).i = s.i := rfl
@[simp] theorem setVf_pc (b : Bool) : (s.setVf b).pc = s.pc := rfl
@[simp] theorem setVf_stack (b : Bool) : (s.setVf b).stack = s.stack := rfl
@[simp] theorem setVf_dt (b : Bool) : (s.setVf b).dt = s.dt := rfl
@[simp] theorem setVf_st (b : Bool) : (s.setVf b).st = s.st := rfl
@[simp] theorem setVf_mode (b : Bool) : (s.setVf b).mode = s.mode := rfl
@[simp] theorem setVf_mem (b : Bool) : (s.setVf b).mem = s.mem := rfl
@[simp] theorem setVf_pix (b : Bool) : (s.setVf b).pix = s.pix := rfl
@[simp] theorem setVf_changed (b : Bool) : (s.setVf b).changed = s.changed := rfl
@[simp] theorem setVf_keys (b : Bool) : (s.setVf b).keys = s.keys := rfl
@[simp] theorem setVf_fatal (b : Bool) : (s.setVf b).fatal = s.fatal := rfl
@[simp] theorem setVf_stackDepth (b : Bool) : (s.setVf b).stackDepth = s.stackDepth := rfl
@[simp] theorem setVf_draws (b : Bool) : (s.setVf b).draws = s.draws := rfl
@[simp] theorem setVf_reports (b : Bool) : (s.setVf b).reports = s.reports := rfl
@[simp] theorem setVf_host (b : Bool) : (s.setVf b).host = s.host := rfl

@[simp] theorem setPc_v (a : Word) : (s.setPc a).v = s.v := rfl
@[simp] theorem setPc_i (a : Word) : (s.setPc a).i = s.i := rfl
@[simp] theorem setPc_pc (a : Word) : (s.setPc a).pc = a := rfl
@[simp] theorem setPc_stack (a : Word) : (s.setPc a).stack = s.stack := rfl
@[simp] theorem setPc_dt (a : Word) : (s.setPc a).dt = s.dt := rfl
@[simp] theorem setPc_st (a : Word) : (s.setPc a).st = s.st := rfl
@[simp] theorem setPc_mode (a : Word) : (s.setPc a).mode = s.mode := rfl
@[simp] theorem setPc_mem (a : Word) : (s.setPc a).mem = s.mem := rfl
@[simp] theorem setPc_pix (a : Word) : (s.setPc a).pix = s.pix := rfl
@[simp] theorem setPc_changed (a : Word) : (s.setPc a).changed = s.changed := rfl
@[simp] theorem setPc_keys (a : Word) : (s.setPc a).keys = s.keys := rfl
@[simp] theorem setPc_fatal (a : Word) : (s.setPc a).fatal = s.fatal := rfl
@[simp] theorem setPc_stackDepth (a : Word) : (s.setPc a).stackDepth = s.stackDepth := rfl
@[simp] theorem setPc_draws (a : Word) : (s.setPc a).draws = s.draws := rfl
@[simp] theorem setPc_reports (a : Word) : (s.setPc a).reports = s.reports := rfl
@[simp] theorem setPc_host (a : Word) : (s.setPc a).host = s.host := rfl

@[simp] theorem setI_v (a : Word) : (s.setI a).v = s.v := rfl
@[simp] theorem setI_i (a : Word) : (s.setI a).i = a := rfl
@[simp] theorem setI_pc (a : Word) : (s.setI a).pc = s.pc := rfl
@[simp] theorem setI_stack (a : Word) : (s.setI a).stack = s.stack := rfl
@[simp] theorem setI_dt (a : Word) : (s.setI a).dt = s.dt := rfl
@[simp] theorem setI_st (a : Word) : (s.setI a).st = s.st := rfl
@[simp] theorem setI_mode (a : Word) : (s.setI a).mode = s.mode := rfl
@[simp] theorem setI_mem (a : Word) : (s.setI a).mem = s.mem := rfl
@[simp] theorem setI_pix (a : Word) : (s.setI a).pix = s.pix := rfl
@[simp] theorem setI_changed (a : Word) : (s.setI a).changed = s.changed := rfl
@[simp] theorem setI_keys (a : Word) : (s.setI a).keys = s.keys := rfl
@[simp] theorem setI_fatal (a : Word) : (s.setI a).fatal = s.fatal := rfl
@[simp] theorem setI_stackDepth (a : Word) : (s.setI a).stackDepth = s.stackDepth := rfl
@[simp] theorem setI_draws (a : Word) : (s.setI a).draws = s.draws := rfl
@[simp] theorem setI_reports (a : Word) : (s.setI a).reports = s.reports := rfl
@[simp] theorem setI_host (a : Word) : (s.setI a).host = s.host := rfl

@[simp] theorem setDt_v (b : Byte) : (s.setDt b).v = s.v := rfl
@[simp] theorem setDt_i (b : Byte) : (s.setDt b).i = s.i := rfl
@[simp] theorem setDt_pc (b : Byte) : (s.setDt b).pc = s.pc := rfl
@[simp] theorem setDt_stack (b : Byte) : (s.setDt b).stack = s.stack := rfl
@[simp] theorem setDt_dt (b : Byte) : (s.setDt b).dt = b := rfl
@[simp] theorem setDt_st (b : Byte) : (s.setDt b).st = s.st := rfl
@[simp] theorem setDt_mode (b : Byte) : (s.setDt b).mode = s.mode := rfl
@[simp] theorem setDt_mem (b : Byte) : (s.setDt b).mem = s.mem := rfl
@[simp] theorem setDt_pix (b : Byte) : (s.setDt b).pix = s.pix := rfl
@[simp] theorem setDt_changed (b : Byte) : (s.setDt b).changed = s.changed := rfl
@[simp] theorem setDt_keys (b : Byte) : (s.setDt b).keys = s.keys := rfl
@[simp] theorem setDt_fatal (b : Byte) : (s.setDt b).fatal = s.fatal := rfl
@[simp] theorem setDt_stackDepth (b : Byte) : (s.setDt b).stackDepth = s.stackDepth := rfl
@[simp] theorem setDt_draws (b : Byte) : (s.setDt b).draws = s.draws := rfl
@[simp] theorem setDt_reports (b : Byte) : (s.setDt b).reports = s.reports := rfl
@[simp] theorem setDt_host (b : Byte) : (s.setDt b).host = s.host := rfl

@[simp] theorem setSt_v (b : Byte) : (s.setSt b).v = s.v := rfl
@[simp] theorem setSt_i (b : Byte) : (s.setSt b).i = s.i := rfl
@[simp] theorem setSt_pc (b : Byte) : (s.setSt b).pc = s.pc := rfl
@[simp] theorem setSt_stack (b : Byte) : (s.setSt b).stack = s.stack := rfl
@[simp] theorem setSt_dt (b : Byte) : (s.setSt b).dt = s.dt := rfl
@[simp] theorem setSt_st (b : Byte) : (s.setSt b).st = b := rfl
@[simp] theorem setSt_mode (b : Byte) : (s.setSt b).mode = s.mode := rfl
@[simp] theorem setSt_mem (b : Byte) : (s.setSt b).mem = s.mem := rfl
@[simp] theorem setSt_pix (b : Byte) : (s.setSt b).pix = s.pix := rfl
@[simp] theorem setSt_changed (b : Byte) : (s.setSt b).changed = s.changed := rfl
@[simp] theorem setSt_keys (b : Byte) : (s.setSt b).keys = s.keys := rfl
@[simp] theorem setSt_fatal (b : Byte) : (s.setSt b).fatal = s.fatal := rfl
@[simp] theorem setSt_stackDepth (b : Byte) : (s.setSt b).stackDepth = s.stackDepth := rfl
@[simp] theorem setSt_draws (b : Byte) : (s.setSt b).draws = s.draws := rfl
@[simp] theorem setSt_reports (b : Byte) : (s.setSt b).reports = s.reports := rfl
@[simp] theorem setSt_host (b : Byte) : (s.setSt b).host = s.host := rfl

@[simp] theorem setMode_v (m : Mode) : (s.setMode m).v = s.v := rfl
@[simp] theorem setMode_i (m : Mode) : (s.setMode m).i = s.i := rfl
@[simp] theorem setMode_pc (m : Mode) : (s.setMode m).pc = s.pc := rfl
@[simp] theorem setMode_stack (m : Mode) : (s.setMode m).stack = s.stack := rfl
@[simp] theorem setMode_dt (m : Mode) : (s.setMode m).dt = s.dt := rfl
@[simp] theorem setMode_st (m : Mode) : (s.setMode m).st = s.st := rfl
@[simp] theorem setMode_mode (m : Mode) : (s.setMode m).mode = m := rfl
@[simp] theorem setMode_mem (m : Mode) : (s.setMode m).mem = s.mem := rfl
@[simp] theorem setMode_pix (m : Mode) : (s.setMode m).pix = s.pix := rfl
@[simp] theorem setMode_changed (m : Mode) : (s.setMode m).changed = s.changed := rfl
@[simp] theorem setMode_keys (m : Mode) : (s.setMode m).keys = s.keys := rfl
@[simp] theorem setMode_fatal (m : Mode) : (s.setMode m).fatal = s.fatal := rfl
@[simp] theorem setMode_stackDepth (m : Mode) : (s.setMode m).stackDepth = s.stackDepth := rfl
@[simp] theorem setMode_draws (m : Mode) : (s.setMode m).draws = s.draws := rfl
@[simp] theorem setMode_reports (m : Mode) : (s.setMode m).reports = s.reports := rfl
@[simp] theorem setMode_host (m : Mode) : (s.setMode m).host = s.host := rfl

@[simp] theorem push_v (a : Word) : (s.push a).v = s.v := rfl
@[simp] theorem push_i (a : Word) : (s.push a).i = s.i := rfl
@[simp] theorem push_pc (a : Word) : (s.push a).pc = s.pc := rfl
@[simp] theorem push_stack (a : Word) : (s.push a).stack = a :: s.stack := rfl
@[simp] theorem push_dt (a : Word) : (s.push a).dt = s.dt := rfl
@[simp] theorem push_st (a : Word) : (s.push a).st = s.st := rfl
@[simp] theorem push_mode (a : Word) : (s.push a).mode = s.mode := rfl
@[simp] theorem push_mem (a : Word) : (s.push a).mem = s.mem := rfl
@[simp] theorem push_pix (a : Word) : (s.push a).pix = s.pix := rfl
@[simp] theorem push_changed (a : Word) : (s.push a).changed = s.changed := rfl
@[simp] theorem push_keys (a : Word) : (s.push a).keys = s.keys := rfl
@[simp] theorem push_fatal (a : Word) : (s.push a).fatal = s.fatal := rfl
@[simp] theorem push_stackDepth (a : Word) : (s.push a).stackDepth = s.stackDepth := rfl
@[simp] theorem push_draws (a : Word) : (s.push a).draws = s.draws := rfl
@[simp] theorem push_reports (a : Word) : (s.push a).reports = s.reports := rfl
@[simp] theorem push_host (a : Word) : (s.push a).host = s.host := rfl

@[simp] theorem report_v (k : ReportKind) (w : Word) : (s.report k w).v = s.v := rfl
@[simp] theorem report_i (k : ReportKind) (w : Word) : (s.report k w).i = s.i := rfl
@[simp] theorem report_pc (k : ReportKind) (w : Word) : (s.report k w).pc = s.pc := rfl
@[simp] theorem report_stack (k : ReportKind) (w : Word) : (s.report k w).stack = s.stack := rfl
@[simp] theorem report_dt (k : ReportKind) (w : Word) : (s.report k w).dt = s.dt := rfl
@[simp] theorem report_st (k : ReportKind) (w : Word) : (s.report k w).st = s.st := rfl
@[simp] theorem report_mode (k : ReportKind) (w : Word) : (s.report k w).mode = s.mode := rfl
@[simp] theorem report_mem (k : ReportKind) (w : Word) : (s.report k w).mem = s.mem := rfl
@[simp] theorem report_pix (k : ReportKind) (w : Word) : (s.report k w).pix = s.pix := rfl
@[simp] theorem report_changed (k : ReportKind) (w : Word) : (s.report k w).changed = s.changed := rfl
@[simp] theorem report_keys (k : ReportKind) (w : Word) : (s.report k w).keys = s.keys := rfl
@[simp] theorem report_fatal (k : ReportKind) (w : Word) : (s.report k w).fatal = s.fatal := rfl
@[simp] theorem report_stackDepth (k : ReportKind) (w : Word) : (s.report k w).stackDepth = s.stackDepth := rfl
@[simp] theorem report_draws (k : ReportKind) (w : Word) : (s.report k w).draws = s.draws := rfl
@[simp] theorem report_reports (k : ReportKind) (w : Word) : (s.report k w).reports = s.reports ++ [⟨k, s.instrAddr, w⟩] := rfl
@[simp] theorem report_host (k : ReportKind) (w : Word) : (s.report k w).host = s.host := rfl

@[simp] theorem drawRandom_v : (s.drawRandom.2).v = s.v := rfl
@[simp] theorem drawRandom_i : (s.drawRandom.2).i = s.i := rfl
@[simp] theorem drawRandom_pc : (s.drawRandom.2).pc = s.pc := rfl
@[simp] theorem drawRandom_stack : (s.drawRandom.2).stack = s.stack := rfl
@[simp] theorem drawRandom_dt : (s.drawRandom.2).dt = s.dt := rfl
@[simp] theorem drawRandom_st : (s.drawRandom.2).st = s.st := rfl
@[simp] theorem drawRandom_mode : (s.drawRandom.2).mode = s.mode := rfl
@[simp] theorem drawRandom_mem : (s.drawRandom.2).mem = s.mem := rfl
@[simp] theorem drawRandom_pix : (s.drawRandom.2).pix = s.pix := rfl
@[simp] theorem drawRandom_changed : (s.drawRandom.2).changed = s.changed := rfl
@[simp] theorem drawRandom_keys : (s.drawRandom.2).keys = s.keys := rfl
@[simp] theorem drawRandom_fatal : (s.drawRandom.2).fatal = s.fatal := rfl
@[simp] theorem drawRandom_stackDepth : (s.drawRandom.2).stackDepth = s.stackDepth := rfl
@[simp] theorem drawRandom_draws : (s.drawRandom.2).draws = s.draws + 1 := rfl
@[simp] theorem drawRandom_reports : (s.drawRandom.2).reports = s.reports := rfl
@[simp] theorem drawRandom_host : (s.drawRandom.2).host = s.host := rfl

@[simp] theorem dispClear_v : (s.dispClear).v = s.v := rfl
@[simp] theorem dispClear_i : (s.dispClear).i = s.i := rfl
@[simp] theorem dispClear_pc : (s.dispClear).pc = s.pc := rfl
@[simp] theorem dispClear_stack : (s.dispClear).stack = s.stack := rfl
@[simp] theorem dispClear_dt : (s.dispClear).dt = s.dt := rfl
@[simp] theorem dispClear_st : (s.dispClear).st = s.st := rfl
@[simp] theorem dispClear_mode : (s.dispClear).mode = s.mode := rfl
@[simp] theorem dispClear_mem : (s.dispClear).mem = s.mem := rfl
@[simp] theorem dispClear_changed : (s.dispClear).changed = true := rfl
@[simp] theorem dispClear_keys : (s.dispClear).keys = s.keys := rfl
@[simp] theorem dispClear_fatal : (s.dispClear).fatal = s.fatal := rfl
@[simp] theorem dispClear_stackDepth : (s.dispClear).stackDepth = s.stackDepth := rfl
@[simp] theorem dispClear_draws : (s.dispClear).draws = s.draws := rfl
@[simp] theorem dispClear_reports : (s.dispClear).reports = s.reports := rfl
@[simp] theorem dispClear_host : (s.dispClear).host = s.host := rfl

@[simp] theorem xorPixel_v (x y : Nat) (b : Bool) : (s.xorPixel x y b).1.v = s.v := rfl
@[simp] theorem xorPixel_i (x y : Nat) (b : Bool) : (s.xorPixel x y b).1.i = s.i := rfl
@[simp] theorem xorPixel_pc (x y : Nat) (b : Bool) : (s.xorPixel x y b).1.pc = s.pc := rfl
@[simp] theorem xorPixel_stack (x y : Nat) (b : Bool) : (s.xorPixel x y b).1.stack = s.stack := rfl
@[simp] theorem xorPixel_dt (x y : Nat) (b : Bool) : (s.xorPixel x y b).1.dt = s.dt := rfl
@[simp] theorem xorPixel_st (x y : Nat) (b : Bool) : (s.xorPixel x y b).1.st = s.st := rfl
@[simp] theorem xorPixel_mode (x y : Nat) (b : Bool) : (s.xorPixel x y b).1.mode = s.mode := rfl
@[simp] theorem xorPixel_mem (x y : Nat) (b : Bool) : (s.xorPixel x y b).1.mem = s.mem := rfl
@[simp] theorem xorPixel_changed (x y : Nat) (b : Bool) : (s.xorPixel x y b).1.changed = true := rfl
@[simp] theorem xorPixel_keys (x y : Nat) (b : Bool) : (s.xorPixel x y b).1.keys = s.keys := rfl
@[simp] theorem xorPixel_fatal (x y : Nat) (b : Bool) : (s.xorPixel x y b).1.fatal = s.fatal := rfl
@[simp] theorem xorPixel_stackDepth (x y : Nat) (b : Bool) : (s.xorPixel x y b).1.stackDepth = s.stackDepth := rfl
@[simp] theorem xorPixel_draws (x y : Nat) (b : Bool) : (s.xorPixel x y b).1.draws = s.draws := rfl
@[simp] theorem xorPixel_reports (x y : Nat) (b : Bool) : (s.xorPixel x y b).1.reports = s.reports := rfl
@[simp] theorem xorPixel_host (x y : Nat) (b : Bool) : (s.xorPixel x y b).1.host = s.host := rfl

@[simp] theorem keyWrite_v (k : Nibble) (l : Bool) : (keyWrite k l s).v = s.v := rfl
@[simp] theorem keyWrite_i (k : Nibble) (l : Bool) : (keyWrite k l s).i = s.i := rfl
@[simp] theorem keyWrite_pc (k : Nibble) (l : Bool) : (keyWrite k l s).pc = s.pc := rfl
@[simp] theorem keyWrite_stack (k : Nibble) (l : Bool) : (keyWrite k l s).stack = s.stack := rfl
@[simp] theorem keyWrite_dt (k : Nibble) (l : Bool) : (keyWrite k l s).dt = s.dt := rfl
@[simp] theorem keyWrite_st (k : Nibble) (l : Bool) : (keyWrite k l s).st = s.st := rfl
@[simp] theorem keyWrite_mode (k : Nibble) (l : Bool) : (keyWrite k l s).mode = s.mode := rfl
@[simp] theorem keyWrite_mem (k : Nibble) (l : Bool) : (keyWrite k l s).mem = s.mem := rfl
@[simp] theorem keyWrite_pix (k : Nibble) (l : Bool) : (keyWrite k l s).pix = s.pix := rfl
@[simp] theorem keyWrite_changed (k : Nibble) (l : Bool) : (keyWrite k l s).changed = s.changed := rfl
@[simp] theorem keyWrite_fatal (k : Nibble) (l : Bool) : (keyWrite k l s).fatal = s.fatal := rfl
@[simp] theorem keyWrite_stackDepth (k : Nibble) (l : Bool) : (keyWrite k l s).stackDepth = s.stackDepth := rfl
@[simp] theorem keyWrite_draws (k : Nibble) (l : Bool) : (keyWrite k l s).draws = s.draws := rfl
@[simp] theorem keyWrite_reports (k : Nibble) (l : Bool) : (keyWrite k l s).reports = s.reports := rfl
@[simp] theorem keyWrite_host (k : Nibble) (l : Bool) : (keyWrite k l s).host = s.host := rfl

@[simp] theorem displayAck_v : (displayAck s).v = s.v := rfl
@[simp] theorem displayAck_i : (displayAck s).i = s.i := rfl
@[simp] theorem displayAck_pc : (displayAck s).pc = s.pc := rfl
@[simp] theorem displayAck_stack : (displayAck s).stack = s.stack := rfl
@[simp] theorem displayAck_dt : (displayAck s).dt = s.dt := rfl
@[simp] theorem displayAck_st : (displayAck s).st = s.st := rfl
@[simp] theorem displayAck_mode : (displayAck s).mode = s.mode := rfl
@[simp] theorem displayAck_mem : (displayAck s).mem = s.mem := rfl
@[simp] theorem displayAck_pix : (displayAck s).pix = s.pix := rfl
@[simp] theorem displayAck_changed : (displayAck s).changed = false := rfl
@[simp] theorem displayAck_keys : (displayAck s).keys = s.keys := rfl
@[simp] theorem displayAck_fatal : (displayAck s).fatal = s.fatal := rfl
@[simp] theorem displayAck_stackDepth : (displayAck s).stackDepth = s.stackDepth := rfl
@[simp] theorem displayAck_draws : (displayAck s).draws = s.draws := rfl
@[simp] theorem displayAck_reports : (displayAck s).reports = s.reports := rfl
@[simp] theorem displayAck_host : (displayAck s).host = s.host := rfl

/-! ### Reads through the accessors -/

@[simp] theorem setV_pixel (x : Nibble) (b : Byte) (c r : Nat) : (s.setV x b).pixel c r = s.pixel c r := rfl
@[simp] theorem setV_keyPressed (x : Nibble) (b : Byte) (j : Nibble) : (s.setV x b).keyPressed j = s.keyPressed j := rfl
@[simp] theorem setV_keyScan (x : Nibble) (b : Byte) : (s.setV x b).keyScan = s.keyScan := rfl
@[simp] theorem setVf_pixel (b : Bool) (c r : Nat) : (s.setVf b).pixel c r = s.pixel c r := rfl
@[simp] theorem setVf_keyPressed (b : Bool) (j : Nibble) : (s.setVf b).keyPressed j = s.keyPressed j := rfl
@[simp] theorem setVf_keyScan (b : Bool) : (s.setVf b).keyScan = s.keyScan := rfl
@[simp] theorem setPc_getV (a : Word) (j : Nibble) : (s.setPc a).getV j = s.getV j := rfl
@[simp] theorem setPc_pixel (a : Word) (c r : Nat) : (s.setPc a).pixel c r = s.pixel c r := rfl
@[simp] theorem setPc_keyPressed (a : Word) (j : Nibble) : (s.setPc a).keyPressed j = s.keyPressed j := rfl
@[simp] theorem setPc_keyScan (a : Word) : (s.setPc a).keyScan = s.keyScan := rfl
@[simp] theorem setI_getV (a : Word) (j : Nibble) : (s.setI a).getV j = s.getV j := rfl
@[simp] theorem setI_pixel (a : Word) (c r : Nat) : (s.setI a).pixel c r = s.pixel c r := rfl
@[simp] theorem setI_keyPressed (a : Word) (j : Nibble) : (s.setI a).keyPressed j = s.keyPressed j := rfl
@[simp] theorem setI_keyScan (a : Word) : (s.setI a).keyScan = s.keyScan := rfl
@[simp] theorem setDt_getV (b : Byte) (j : Nibble) : (s.setDt b).getV j = s.getV j := rfl
@[simp] theorem setDt_pixel (b : Byte) (c r : Nat) : (s.setDt b).pixel c r = s.pixel c r := rfl
@[simp] theorem setDt_keyPressed (b : Byte) (j : Nibble) : (s.setDt b).keyPressed j = s.keyPressed j := rfl
@[simp] theorem setDt_keyScan (b : Byte) : (s.setDt b).keyScan = s.keyScan := rfl
@[simp] theorem setSt_getV (b : Byte) (j : Nibble) : (s.setSt b).getV j = s.getV j := rfl
@[simp] theorem setSt_pixel (b : Byte) (c r : Nat) : (s.setSt b).pixel c r = s.pixel c r := rfl
@[simp] theorem setSt_keyPressed (b : Byte) (j : Nibble) : (s.setSt b).keyPressed j = s.keyPressed j := rfl
@[simp] theorem setSt_keyScan (b : Byte) : (s.setSt b).keyScan = s.keyScan := rfl
@[simp] theorem setMode_getV (m : Mode) (j : Nibble) : (s.setMode m).getV j = s.getV j := rfl
@[simp] theorem setMode_pixel (m : Mode) (c r : Nat) : (s.setMode m).pixel c r = s.pixel c r := rfl
@[simp] theorem setMode_keyPressed (m : Mode) (j : Nibble) : (s.setMode m).keyPressed j = s.keyPressed j := rfl
@[simp] theorem setMode_keyScan (m : Mode) : (s.setMode m).keyScan = s.keyScan := rfl
@[simp] theorem push_getV (a : Word) (j : Nibble) : (s.push a).getV j = s.getV j := rfl
@[simp] theorem push_pixel (a : Word) (c r : Nat) : (s.push a).pixel c r = s.pixel c r := rfl
@[simp] theorem push_keyPressed (a : Word) (j : Nibble) : (s.push a).keyPressed j = s.keyPressed j := rfl
@[simp] theorem push_keyScan (a : Word) : (s.push a).keyScan = s.keyScan := rfl
@[simp] theorem report_getV (k : ReportKind) (w : Word) (j : Nibble) : (s.report k w).getV j = s.getV j := rfl
@[simp] theorem report_pixel (k : ReportKind) (w : Word) (c r : Nat) : (s.report k w).pixel c r = s.pixel c r := rfl
@[simp] theorem report_keyPressed (k : ReportKind) (w : Word) (j : Nibble) : (s.report k w).keyPressed j = s.keyPressed j := rfl
@[simp] theorem report_keyScan (k : ReportKind) (w : Word) : (s.report k w).keyScan = s.keyScan := rfl
@[simp] theorem drawRandom_getV (j : Nibble) : (s.drawRandom.2).getV j = s.getV j := rfl
@[simp] theorem drawRandom_pixel (c r : Nat) : (s.drawRandom.2).pixel c r = s.pixel c r := rfl
@[simp] theorem drawRandom_keyPressed (j : Nibble) : (s.drawRandom.2).keyPressed j = s.keyPressed j := rfl
@[simp] theorem drawRandom_keyScan : (s.drawRandom.2).keyScan = s.keyScan := rfl
@[simp] theorem dispClear_getV (j : Nibble) : (s.dispClear).getV j = s.getV j := rfl
@[simp] theorem dispClear_keyPressed (j : Nibble) : (s.dispClear).keyPressed j = s.keyPressed j := rfl
@[simp] theorem dispClear_keyScan : (s.dispClear).keyScan = s.keyScan := rfl
@[simp] theorem xorPixel_getV (x y : Nat) (b : Bool) (j : Nibble) : (s.xorPixel x y b).1.getV j = s.getV j := rfl
@[simp] theorem xorPixel_keyPressed (x y : Nat) (b : Bool) (j : Nibble) : (s.xorPixel x y b).1.keyPressed j = s.keyPressed j := rfl
@[simp] theorem xorPixel_keyScan (x y : Nat) (b : Bool) : (s.xorPixel x y b).1.keyScan = s.keyScan := rfl
@[simp] theorem keyWrite_getV (k : Nibble) (l : Bool) (j : Nibble) : (keyWrite k l s).getV j = s.getV j := rfl
@[simp] theorem keyWrite_pixel (k : Nibble) (l : Bool) (c r : Nat) : (keyWrite k l s).pixel c r = s.pixel c r := rfl
@[simp] theorem displayAck_getV (j : Nibble) : (displayAck s).getV j = s.getV j := rfl
@[simp] theorem displayAck_pixel (c r : Nat) : (displayAck s).pixel c r = s.pixel c r := rfl
@[simp] theorem displayAck_keyPressed (j : Nibble) : (displayAck s).keyPressed j = s.keyPressed j := rfl
@[simp] theorem displayAck_keyScan : (displayAck s).keyScan = s.keyScan := rfl

/-! ### The V registers -/

@[simp] theorem getV_setV_same (x : Nibble) (b : Byte) : (s.setV x b).getV x = b := by
  simp [State.getV, State.setV]

theorem getV_setV_of_ne (b : Byte) {x j : Nibble} (h : j ≠ x) : (s.setV x b).getV j = s.getV j := by
  have hn : x.toNat ≠ j.toNat := fun e => h (BitVec.eq_of_toNat_eq e.symm)
  simp [State.getV, State.setV, hn]

theorem getV_setV (x j : Nibble) (b : Byte) :
    (s.setV x b).getV j = if j = x then b else s.getV j := by
  by_cases h : j = x
  · subst h; simp
  · simp [h, getV_setV_of_ne]

theorem getV_setVf (j : Nibble) (b : Bool) :
    (s.setVf b).getV j = if j = vf then flagByte b else s.getV j := getV_setV s vf j _

/-- A register list holds the registers in order. -/
theorem firstV_length (x : Nibble) : (s.firstV x).length = x.toNat + 1 := by
  have hx : x.toNat < 16 := x.isLt
  simp [State.firstV]; omega

theorem firstV_getElem (x j : Nibble) (h : j.toNat < (s.firstV x).length) :
    (s.firstV x)[j.toNat] = s.getV j := by
  simp [State.firstV, State.getV]

end Sys2Proof.Machine
end

