-- ==== Sys2Proof/Laws/Memory.lean ====
section
/-! SUPPORT. The laws of memory: reading after writing, the canonical form, and what the shared operations
over several bytes do. -/

namespace Sys2Proof.Machine

theorem lookup_put_same (m : Memory) (a : Nat) (b : Byte) : (m.put a b).lookup a = some b := by
  induction m with
  | nil => simp [Memory.put, Memory.lookup]
  | cons c m ih =>
    obtain ⟨k, v⟩ := c
    simp only [Memory.put]
    split
    · simp [Memory.lookup]
    · split
      · simp [Memory.lookup]
      · rename_i h
        simp [Memory.lookup, Ne.symm h, ih]

theorem lookup_put_of_ne (m : Memory) {a c : Nat} (b : Byte) (h : c ≠ a) :
    (m.put a b).lookup c = m.lookup c := by
  induction m with
  | nil => simp [Memory.put, Memory.lookup, Ne.symm h]
  | cons e m ih =>
    obtain ⟨k, v⟩ := e
    simp only [Memory.put]
    split
    · simp [Memory.lookup, Ne.symm h]
    · split
      · rename_i hk
        subst hk
        simp [Memory.lookup, Ne.symm h]
      · simp [Memory.lookup, ih]

theorem lookup_filter_same (m : Memory) (a : Nat) :
    (Memory.lookup (m.filter (fun c => c.1 ≠ a)) a) = none := by
  induction m with
  | nil => rfl
  | cons e m ih =>
    obtain ⟨k, v⟩ := e
    by_cases h : k = a
    · simpa [h] using ih
    · simpa [h, Memory.lookup] using ih

theorem lookup_filter_of_ne (m : Memory) {a c : Nat} (h : c ≠ a) :
    (Memory.lookup (m.filter (fun e => e.1 ≠ a)) c) = m.lookup c := by
  induction m with
  | nil => rfl
  | cons e m ih =>
    obtain ⟨k, v⟩ := e
    by_cases hk : k = a
    · subst hk
      simpa [Memory.lookup, Ne.symm h] using ih
    · by_cases hc : k = c
      · subst hc; simp [Memory.lookup, hk]
      · simpa [hk, hc, Memory.lookup] using ih

/-- A read after a write to the same address gives the byte written. -/
@[simp] theorem read_write_same (m : Memory) (a : Nat) (b : Byte) : (m.write a b).read a = b := by
  unfold Memory.write Memory.read
  split
  · rename_i h; rw [lookup_filter_same, h]; rfl
  · simp [lookup_put_same]

/-- A write leaves every other address alone. -/
theorem read_write_of_ne (m : Memory) {a c : Nat} (b : Byte) (h : c ≠ a) :
    (m.write a b).read c = m.read c := by
  unfold Memory.write Memory.read
  split
  · rw [lookup_filter_of_ne m h]
  · rw [lookup_put_of_ne m b h]

/-! ### The canonical form -/

theorem wfFrom_mono {lo lo' : Nat} (h : lo ≤ lo') :
    ∀ {m : Memory}, m.wfFrom lo' = true → m.wfFrom lo = true
  | [], _ => rfl
  | (k, b) :: m, hm => by
    simp only [Memory.wfFrom, Bool.and_eq_true, decide_eq_true_eq] at hm ⊢
    exact ⟨⟨⟨by omega, hm.1.1.2⟩, hm.1.2⟩, hm.2⟩

theorem wfFrom_filter (m : Memory) (lo : Nat) (p : Host.Cell → Bool) (h : m.wfFrom lo = true) :
    Memory.wfFrom lo (m.filter p) = true := by
  induction m generalizing lo with
  | nil => rfl
  | cons c m ih =>
    obtain ⟨k, b⟩ := c
    simp only [Memory.wfFrom, Bool.and_eq_true, decide_eq_true_eq] at h
    by_cases hp : p (k, b)
    · simp only [List.filter_cons_of_pos hp, Memory.wfFrom, Bool.and_eq_true, decide_eq_true_eq]
      exact ⟨h.1, ih (k + 1) h.2⟩
    · rw [List.filter_cons_of_neg hp]
      exact ih lo (wfFrom_mono (by omega) h.2)

theorem wfFrom_put (m : Memory) (lo : Nat) {a : Nat} {b : Byte} (hlo : lo ≤ a)
    (ha : a < Config.memSize) (hb : b ≠ Memory.blank a) (h : m.wfFrom lo = true) :
    Memory.wfFrom lo (m.put a b) = true := by
  induction m generalizing lo with
  | nil => simp [Memory.put, Memory.wfFrom, hlo, ha, hb]
  | cons c m ih =>
    obtain ⟨k, v⟩ := c
    simp only [Memory.wfFrom, Bool.and_eq_true, decide_eq_true_eq] at h
    simp only [Memory.put]
    split
    · simp only [Memory.wfFrom, Bool.and_eq_true, decide_eq_true_eq, bne_iff_ne]
      exact ⟨⟨⟨hlo, ha⟩, hb⟩, ⟨⟨by omega, h.1.1.2⟩, by simpa using h.1.2⟩, h.2⟩
    · split
      · rename_i hk
        subst hk
        simp only [Memory.wfFrom, Bool.and_eq_true, decide_eq_true_eq, bne_iff_ne]
        exact ⟨⟨⟨hlo, ha⟩, hb⟩, h.2⟩
      · simp only [Memory.wfFrom, Bool.and_eq_true, decide_eq_true_eq]
        exact ⟨h.1, ih (k + 1) (by omega) h.2⟩

/-- A write inside memory keeps the canonical form. -/
theorem wf_write {m : Memory} {a : Nat} (b : Byte) (ha : a < Config.memSize) (h : m.wf = true) :
    (m.write a b).wf = true := by
  unfold Memory.write Memory.wf
  split
  · exact wfFrom_filter m 0 _ h
  · rename_i hb; exact wfFrom_put m 0 (Nat.zero_le a) ha hb h

/-! ### Single accesses -/

theorem memRead_ok (s : State) {a : Nat} (h : a < Config.memSize) :
    s.memRead a = .ok (s.mem.read a) := by simp [State.memRead, h]

theorem memRead_error (s : State) {a : Nat} (h : Config.memSize ≤ a) :
    s.memRead a = .error (.memoryOutOfBounds a) := by simp [State.memRead, Nat.not_lt.mpr h]

theorem memWrite_ok (s : State) {a : Nat} (b : Byte) (h : a < Config.memSize) :
    s.memWrite a b = .ok { s with mem := s.mem.write a b } := by simp [State.memWrite, h]

theorem memWrite_error (s : State) {a : Nat} (b : Byte) (h : Config.memSize ≤ a) :
    s.memWrite a b = .error (.memoryOutOfBounds a) := by simp [State.memWrite, Nat.not_lt.mpr h]

/-! ### Several bytes -/

/-- All that storing bytes does when every address is inside memory: the bytes stand at the addresses from
`a` up, every other byte and every other field is as before, and the canonical form is kept. -/
theorem storeBytes_ok (s : State) (a : Nat) (bs : List Byte) (h : a + bs.length ≤ Config.memSize) :
    ∃ m : Memory, s.storeBytes a bs = .ok { s with mem := m } ∧
      (∀ k (hk : k < bs.length), m.read (a + k) = bs[k]) ∧
      (∀ c, c < a ∨ a + bs.length ≤ c → m.read c = s.mem.read c) ∧
      (s.mem.wf = true → m.wf = true) := by
  induction bs generalizing s a with
  | nil => exact ⟨s.mem, rfl, by simp, fun _ _ => rfl, id⟩
  | cons b bs ih =>
    simp only [List.length_cons] at h
    have ha : a < Config.memSize := by omega
    obtain ⟨m, hm, hin, hout, hwf⟩ := ih { s with mem := s.mem.write a b } (a + 1) (by omega)
    refine ⟨m, ?_, ?_, ?_, fun hs => hwf (wf_write b ha hs)⟩
    · simp only [State.storeBytes, memWrite_ok s b ha]
      exact hm
    · intro k hk
      cases k with
      | zero => simpa using (hout a (by omega)).trans (read_write_same _ _ _)
      | succ k =>
        simp only [List.length_cons] at hk
        simpa [Nat.add_comm, Nat.add_left_comm, Nat.add_assoc] using hin k (by omega)
    · intro c hc
      simp only [List.length_cons] at hc
      exact (hout c (by omega)).trans (read_write_of_ne _ _ (by omega))

/-- Storing bytes of which one is outside memory raises the fault at the first such address. -/
theorem storeBytes_error (s : State) (a : Nat) (bs : List Byte) (hne : bs ≠ [])
    (h : Config.memSize < a + bs.length) :
    s.storeBytes a bs = .error (.memoryOutOfBounds (max a Config.memSize)) := by
  induction bs generalizing s a with
  | nil => exact absurd rfl hne
  | cons b bs ih =>
    simp only [List.length_cons] at h
    by_cases ha : a < Config.memSize
    · simp only [State.storeBytes, memWrite_ok s b ha]
      cases bs with
      | nil => simp at h; omega
      | cons b' bs' =>
        rw [ih _ (a + 1) (by simp) (by omega)]
        congr 2
        omega
    · simp only [State.storeBytes, memWrite_error s b (Nat.not_lt.mp ha)]
      congr 2
      omega

/-- All that loading registers does when every address is inside memory: V[k] to V[k+n-1] hold the bytes
from `a + k` up, and every other register and every other field is as before. -/
theorem loadFrom_ok (s : State) (a k n : Nat) (hk : k + n ≤ 16) (h : a + k + n ≤ Config.memSize) :
    ∃ v : Vector Byte 16, s.loadFrom a k n = .ok { s with v := v } ∧
      (∀ j : Nibble, ({ s with v := v } : State).getV j =
        if k ≤ j.toNat ∧ j.toNat < k + n then s.mem.read (a + j.toNat) else s.getV j) := by
  induction n generalizing s k with
  | zero => exact ⟨s.v, rfl, fun j => by rw [if_neg (by omega)]⟩
  | succ n ih =>
    have ha : a + k < Config.memSize := by omega
    obtain ⟨v, hv, hj⟩ := ih (s.setV (BitVec.ofNat 4 k) (s.mem.read (a + k))) (k + 1) (by omega) (by omega)
    refine ⟨v, ?_, ?_⟩
    · simp only [State.loadFrom, memRead_ok s ha]
      exact hv
    · intro j
      have hkj : (j = BitVec.ofNat 4 k) ↔ j.toNat = k := by
        constructor
        · intro e; subst e; simp; omega
        · intro e; exact BitVec.eq_of_toNat_eq (by simp; omega)
      have := hj j
      simp only [setV_mem, getV_setV, hkj] at this
      refine (Eq.trans ?_ this).trans ?_
      · rfl
      · by_cases h1 : k + 1 ≤ j.toNat ∧ j.toNat < k + 1 + n
        · rw [if_pos h1, if_pos (by omega)]
        · by_cases h2 : j.toNat = k
          · rw [if_neg h1, if_pos h2, if_pos (by omega), h2]
          · rw [if_neg h1, if_neg h2, if_neg (by omega)]

/-- Loading registers of which one is outside memory raises the fault at the first such address. -/
theorem loadFrom_error (s : State) (a k n : Nat) (hn : 0 < n) (h : Config.memSize < a + k + n) :
    s.loadFrom a k n = .error (.memoryOutOfBounds (max (a + k) Config.memSize)) := by
  induction n generalizing s k with
  | zero => omega
  | succ n ih =>
    by_cases ha : a + k < Config.memSize
    · simp only [State.loadFrom, memRead_ok s ha]
      rw [ih _ (k + 1) (by omega) (by omega)]
      congr 2
      omega
    · simp only [State.loadFrom, memRead_error s (Nat.not_lt.mp ha)]
      congr 2
      omega

end Sys2Proof.Machine
end

