-- ==== Sys2Proof/Laws/Boot.lean ====
section
/-! SUPPORT. What writing a run of bytes into a memory does: for the font and the program image at boot. -/

namespace Sys2Proof.Machine

/-- Outside the bytes written, a memory reads as before. -/
theorem read_writeAll_outside (m : Memory) (a : Nat) (bs : List Byte) {c : Nat}
    (h : c < a ∨ a + bs.length ≤ c) : (m.writeAll a bs).read c = m.read c := by
  induction bs generalizing m a with
  | nil => rfl
  | cons b bs ih =>
    simp only [List.length_cons] at h
    simp only [Memory.writeAll]
    rw [ih _ _ (by omega), read_write_of_ne _ _ (by omega)]

/-- The bytes written stand at consecutive ascending addresses. -/
theorem read_writeAll_inside (m : Memory) (a : Nat) (bs : List Byte) (k : Nat) (hk : k < bs.length) :
    (m.writeAll a bs).read (a + k) = bs[k] := by
  induction bs generalizing m a k with
  | nil => simp at hk
  | cons b bs ih =>
    simp only [Memory.writeAll]
    cases k with
    | zero => rw [read_writeAll_outside _ _ _ (by omega)]; simp
    | succ k =>
      simp only [List.length_cons] at hk
      simpa [Nat.add_comm, Nat.add_left_comm, Nat.add_assoc] using ih (m.write a b) (a + 1) k (by omega)

/-- Writing inside memory keeps the canonical form. -/
theorem wf_writeAll (m : Memory) (a : Nat) (bs : List Byte) (h : a + bs.length ≤ Config.memSize)
    (hm : m.wf = true) : (m.writeAll a bs).wf = true := by
  induction bs generalizing m a with
  | nil => exact hm
  | cons b bs ih =>
    simp only [List.length_cons] at h
    exact ih _ _ (by omega) (wf_write b (by omega) hm)

end Sys2Proof.Machine
end

