-- ==== Sys2Proof/Laws/Decode.lean ====
section
/-! SUPPORT. The fields of a word of each format (R82, R83), and that a word is made of its fields. -/

namespace Sys2Proof

@[simp] theorem nibble0_wordAddr (op : Nibble) (nnn : Addr) : nibble0 (wordAddr op nnn) = op := by
  refine BitVec.eq_of_getLsbD_eq fun j hj => ?_
  simp only [nibble0, wordAddr, BitVec.getLsbD_extractLsb', BitVec.getLsbD_append]
  grind

@[simp] theorem fieldNnn_wordAddr (op : Nibble) (nnn : Addr) : fieldNnn (wordAddr op nnn) = nnn := by
  refine BitVec.eq_of_getLsbD_eq fun j hj => ?_
  simp only [fieldNnn, wordAddr, BitVec.getLsbD_extractLsb', BitVec.getLsbD_append]
  grind

@[simp] theorem nibble0_wordXKk (op x : Nibble) (kk : Byte) : nibble0 (wordXKk op x kk) = op := by
  refine BitVec.eq_of_getLsbD_eq fun j hj => ?_
  simp only [nibble0, wordXKk, BitVec.getLsbD_extractLsb', BitVec.getLsbD_append]
  grind

@[simp] theorem fieldX_wordXKk (op x : Nibble) (kk : Byte) : fieldX (wordXKk op x kk) = x := by
  refine BitVec.eq_of_getLsbD_eq fun j hj => ?_
  simp only [fieldX, wordXKk, BitVec.getLsbD_extractLsb', BitVec.getLsbD_append]
  grind

@[simp] theorem fieldKk_wordXKk (op x : Nibble) (kk : Byte) : fieldKk (wordXKk op x kk) = kk := by
  refine BitVec.eq_of_getLsbD_eq fun j hj => ?_
  simp only [fieldKk, wordXKk, BitVec.getLsbD_extractLsb', BitVec.getLsbD_append]
  grind

@[simp] theorem nibble0_wordXYN (op x y n : Nibble) : nibble0 (wordXYN op x y n) = op := by
  refine BitVec.eq_of_getLsbD_eq fun j hj => ?_
  simp only [nibble0, wordXYN, BitVec.getLsbD_extractLsb', BitVec.getLsbD_append]
  grind

@[simp] theorem fieldX_wordXYN (op x y n : Nibble) : fieldX (wordXYN op x y n) = x := by
  refine BitVec.eq_of_getLsbD_eq fun j hj => ?_
  simp only [fieldX, wordXYN, BitVec.getLsbD_extractLsb', BitVec.getLsbD_append]
  grind

@[simp] theorem fieldY_wordXYN (op x y n : Nibble) : fieldY (wordXYN op x y n) = y := by
  refine BitVec.eq_of_getLsbD_eq fun j hj => ?_
  simp only [fieldY, wordXYN, BitVec.getLsbD_extractLsb', BitVec.getLsbD_append]
  grind

@[simp] theorem fieldN_wordXYN (op x y n : Nibble) : fieldN (wordXYN op x y n) = n := by
  refine BitVec.eq_of_getLsbD_eq fun j hj => ?_
  simp only [fieldN, wordXYN, BitVec.getLsbD_extractLsb', BitVec.getLsbD_append]
  grind

theorem wordAddr_fields (w : Word) : wordAddr (nibble0 w) (fieldNnn w) = w := by
  refine BitVec.eq_of_getLsbD_eq fun j hj => ?_
  simp only [nibble0, fieldNnn, wordAddr, BitVec.getLsbD_extractLsb', BitVec.getLsbD_append]
  grind

theorem wordXKk_fields (w : Word) : wordXKk (nibble0 w) (fieldX w) (fieldKk w) = w := by
  refine BitVec.eq_of_getLsbD_eq fun j hj => ?_
  simp only [nibble0, fieldX, fieldKk, wordXKk, BitVec.getLsbD_extractLsb', BitVec.getLsbD_append]
  grind

theorem wordXYN_fields (w : Word) : wordXYN (nibble0 w) (fieldX w) (fieldY w) (fieldN w) = w := by
  refine BitVec.eq_of_getLsbD_eq fun j hj => ?_
  simp only [nibble0, fieldX, fieldY, fieldN, wordXYN, BitVec.getLsbD_extractLsb', BitVec.getLsbD_append]
  grind

/-- The bytes of a word, first byte high, make the word again (R57). -/
@[simp] theorem wordOfBytes_bytes (w : Word) : wordOfBytes (wordHigh w) (wordLow w) = w := by
  refine BitVec.eq_of_getLsbD_eq fun j hj => ?_
  simp only [wordOfBytes, wordHigh, wordLow, BitVec.getLsbD_extractLsb', BitVec.getLsbD_append]
  grind

/-- The table word of the host is the word itself: storing it big-endian and decoding the bytes decodes the
word. -/
theorem decodeTableWord_eq (w : Nat) (h : w < 2 ^ 16) :
    decodeTableWord 16 w = (decode (BitVec.ofNat 16 w)).toOption := by
  simp only [decodeTableWord, h, and_self, if_true, decodeBytes, wordOfBytes_bytes]
  cases decode (BitVec.ofNat 16 w) <;> rfl

/-! ### Words of one format are equal when their fields are -/

theorem wordAddr_inj {op op' : Nibble} {a a' : Addr} :
    wordAddr op a = wordAddr op' a' ↔ op = op' ∧ a = a' := by
  constructor
  · intro h
    exact ⟨by simpa using congrArg nibble0 h, by simpa using congrArg fieldNnn h⟩
  · rintro ⟨rfl, rfl⟩; rfl

theorem wordXKk_inj {op x op' x' : Nibble} {k k' : Byte} :
    wordXKk op x k = wordXKk op' x' k' ↔ op = op' ∧ x = x' ∧ k = k' := by
  constructor
  · intro h
    exact ⟨by simpa using congrArg nibble0 h, by simpa using congrArg fieldX h,
      by simpa using congrArg fieldKk h⟩
  · rintro ⟨rfl, rfl, rfl⟩; rfl

theorem wordXYN_inj {op x y n op' x' y' n' : Nibble} :
    wordXYN op x y n = wordXYN op' x' y' n' ↔ op = op' ∧ x = x' ∧ y = y' ∧ n = n' := by
  constructor
  · intro h
    exact ⟨by simpa using congrArg nibble0 h, by simpa using congrArg fieldX h,
      by simpa using congrArg fieldY h, by simpa using congrArg fieldN h⟩
  · rintro ⟨rfl, rfl, rfl, rfl⟩; rfl

/-! ### What the masks of R85 keep -/

theorem and_F000 (w : Word) : w &&& 0xF000 = wordAddr (nibble0 w) 0 := by
  refine BitVec.eq_of_getLsbD_eq fun j hj => ?_
  simp only [nibble0, wordAddr, BitVec.getLsbD_extractLsb', BitVec.getLsbD_append, BitVec.getLsbD_and]
  have : j ∈ List.range 16 := by simpa using hj
  fin_cases this <;> simp

theorem and_F00F (w : Word) : w &&& 0xF00F = wordXYN (nibble0 w) 0 0 (fieldN w) := by
  refine BitVec.eq_of_getLsbD_eq fun j hj => ?_
  simp only [nibble0, fieldN, wordXYN, BitVec.getLsbD_extractLsb', BitVec.getLsbD_append,
    BitVec.getLsbD_and]
  have : j ∈ List.range 16 := by simpa using hj
  fin_cases this <;> simp

theorem and_F0FF (w : Word) : w &&& 0xF0FF = wordXKk (nibble0 w) 0 (fieldKk w) := by
  refine BitVec.eq_of_getLsbD_eq fun j hj => ?_
  simp only [nibble0, fieldKk, wordXKk, BitVec.getLsbD_extractLsb', BitVec.getLsbD_append,
    BitVec.getLsbD_and]
  have : j ∈ List.range 16 := by simpa using hj
  fin_cases this <;> simp

theorem and_FFFF (w : Word) : w &&& 0xFFFF = w := by
  refine BitVec.eq_of_getLsbD_eq fun j hj => ?_
  simp only [BitVec.getLsbD_and]
  have : j ∈ List.range 16 := by simpa using hj
  fin_cases this <;> simp

/-- A row of format ADDR, XKK or XYN fits by its first nibble. -/
theorem fits_op (nm : String) (op : Nibble) (w p : Word) (hp : p = wordAddr op 0) :
    OpcodeRow.fits ⟨nm, 0xF000, p⟩ w = decide (nibble0 w = op) := by
  subst hp
  simp only [OpcodeRow.fits, and_F000]
  rw [Bool.eq_iff_iff]
  simp [wordAddr_inj]

/-- A row of format XY fits by its first and last nibbles. -/
theorem fits_op_fn4 (nm : String) (op fn : Nibble) (w p : Word) (hp : p = wordXYN op 0 0 fn) :
    OpcodeRow.fits ⟨nm, 0xF00F, p⟩ w = (decide (nibble0 w = op) && decide (fieldN w = fn)) := by
  subst hp
  simp only [OpcodeRow.fits, and_F00F]
  rw [Bool.eq_iff_iff]
  simp [wordXYN_inj]

/-- A row of format X fits by its first nibble and its last byte. -/
theorem fits_op_fn8 (nm : String) (op : Nibble) (fn : Byte) (w p : Word) (hp : p = wordXKk op 0 fn) :
    OpcodeRow.fits ⟨nm, 0xF0FF, p⟩ w = (decide (nibble0 w = op) && decide (fieldKk w = fn)) := by
  subst hp
  simp only [OpcodeRow.fits, and_F0FF]
  rw [Bool.eq_iff_iff]
  simp [wordXKk_inj]

/-- A row of format NONE fits one word. -/
theorem fits_word (nm : String) (w p : Word) :
    OpcodeRow.fits ⟨nm, 0xFFFF, p⟩ w = decide (w = p) := by
  simp only [OpcodeRow.fits, and_FFFF]
  rw [Bool.eq_iff_iff]
  simp

end Sys2Proof
end

