-- ==== Sys2Proof/Laws/Display.lean ====
section
/-! SUPPORT. What the display operations do to each pixel, and to nothing else. A coordinate counts modulo
W and H (R60); fewer bits than W, and fewer rows than H, never touch a pixel twice (R204). -/

namespace Sys2Proof.Machine

theorem pixel_congr (s : State) {x y x' y' : Nat} (hx : x % Config.width = x' % Config.width)
    (hy : y % Config.height = y' % Config.height) : s.pixel x y = s.pixel x' y' := by
  have h1 : column x = column x' := Fin.ext hx
  have h2 : row y = row y' := Fin.ext hy
  simp only [State.pixel, h1, h2]

@[simp] theorem dispClear_pixel (s : State) (x y : Nat) : s.dispClear.pixel x y = false := by
  simp only [State.pixel, State.dispClear, Fin.getElem_fin, Vector.getElem_replicate]

end Sys2Proof.Machine
namespace Sys2Proof.Machine

/-- A pixel after one XOR: toggled by the bit if it is the one addressed, else as before (R62). -/
theorem xorPixel_pixel (s : State) (x y cx cy : Nat) (b : Bool) :
    (s.xorPixel x y b).1.pixel cx cy =
      if cx % Config.width = x % Config.width ∧ cy % Config.height = y % Config.height
      then s.pixel cx cy ^^ b else s.pixel cx cy := by
  by_cases hx : cx % Config.width = x % Config.width
  · by_cases hy : cy % Config.height = y % Config.height
    · rw [if_pos ⟨hx, hy⟩, pixel_congr s hx hy]
      have h1 : column cx = column x := Fin.ext hx
      have h2 : row cy = row y := Fin.ext hy
      simp [State.pixel, State.xorPixel, Grid.write, h1, h2]
    · have h2 : (row y).val ≠ (row cy).val := fun e => hy e.symm
      have h1 : column cx = column x := Fin.ext hx
      rw [if_neg (fun h => hy h.2)]
      simp [State.pixel, State.xorPixel, Grid.write, h1, h2]
  · have h1 : (column x).val ≠ (column cx).val := fun e => hx e.symm
    rw [if_neg (fun h => hx h.1)]
    simp [State.pixel, State.xorPixel, Grid.write, h1]

/-- The frame of every display write: only the pixels and `changed`. -/
def OnlyDisplay (s t : State) : Prop := t = { s with pix := t.pix, changed := t.changed }

theorem OnlyDisplay.refl (s : State) : OnlyDisplay s s := rfl

theorem OnlyDisplay.trans {s t u : State} (h : OnlyDisplay s t) (h' : OnlyDisplay t u) :
    OnlyDisplay s u := by
  unfold OnlyDisplay at *
  rw [h', h]

theorem xorPixel_frame (s : State) (x y : Nat) (b : Bool) : OnlyDisplay s (s.xorPixel x y b).1 := rfl

theorem xorBits_frame (s : State) (x y : Nat) (bs : List Bool) : OnlyDisplay s (s.xorBits x y bs).1 := by
  induction bs generalizing s x with
  | nil => exact .refl s
  | cons b bs ih => exact (xorPixel_frame s x y b).trans (ih _ _)

theorem xorBits_changed (s : State) (x y : Nat) {bs : List Bool} (h : bs ≠ []) :
    (s.xorBits x y bs).1.changed = true := by
  induction bs generalizing s x with
  | nil => exact absurd rfl h
  | cons b bs ih =>
    cases bs with
    | nil => rfl
    | cons b' bs => exact ih _ _ (by simp)

/-- The bits from the column `x` in the row `y` cover the pixel (cx, cy). -/
def Covers (bs : List Bool) (x y cx cy : Nat) : Prop :=
  cy % Config.height = y % Config.height ∧
    ∃ j, bs[j]? = some true ∧ cx % Config.width = (x + j) % Config.width

theorem covers_cons (b : Bool) (bs : List Bool) (x y cx cy : Nat) :
    Covers (b :: bs) x y cx cy ↔
      (cy % Config.height = y % Config.height ∧ cx % Config.width = x % Config.width ∧ b = true) ∨
      Covers bs (x + 1) y cx cy := by
  constructor
  · rintro ⟨hy, j, hj, hx⟩
    cases j with
    | zero => exact .inl ⟨hy, by simpa using hx, by simpa using hj⟩
    | succ j => exact .inr ⟨hy, j, by simpa using hj, by rw [hx]; congr 1; omega⟩
  · rintro (⟨hy, hx, hb⟩ | ⟨hy, j, hj, hx⟩)
    · exact ⟨hy, 0, by simp [hb], by simpa using hx⟩
    · exact ⟨hy, j + 1, by simpa using hj, by rw [hx]; congr 1; omega⟩

/-- Fewer bits than W: the later ones do not come back to the first one's column (R204). -/
theorem not_covers_tail {bs : List Bool} {x y cx cy : Nat} (hl : bs.length < Config.width)
    (hx : cx % Config.width = x % Config.width) : ¬ Covers bs (x + 1) y cx cy := by
  rintro ⟨-, j, hj, hx'⟩
  have hlt : j < bs.length := by
    by_contra hge
    rw [List.getElem?_eq_none (by omega)] at hj
    cases hj
  simp only [Config.width] at *
  omega

/-- At most W bits in a row: each covered pixel is toggled, every other one is as before (R63). -/
theorem xorBits_pixel (s : State) (x y : Nat) (bs : List Bool) (hl : bs.length ≤ Config.width)
    (cx cy : Nat) :
    (Covers bs x y cx cy → (s.xorBits x y bs).1.pixel cx cy = !s.pixel cx cy) ∧
    (¬ Covers bs x y cx cy → (s.xorBits x y bs).1.pixel cx cy = s.pixel cx cy) := by
  induction bs generalizing s x with
  | nil =>
    refine ⟨?_, fun _ => rfl⟩
    rintro ⟨-, j, hj, -⟩
    simp at hj
  | cons b bs ih =>
    simp only [List.length_cons] at hl
    obtain ⟨ih1, ih2⟩ := ih (s.xorPixel x y b).1 (x + 1) (by omega)
    simp only [xorPixel_pixel] at ih1 ih2
    simp only [State.xorBits]
    rw [covers_cons]
    by_cases hx : cx % Config.width = x % Config.width
    · have hnot := not_covers_tail (y := y) (cy := cy) (bs := bs) (by omega) hx
      rw [ih2 hnot]
      by_cases hy : cy % Config.height = y % Config.height
      · cases b <;> simp [hx, hy, hnot]
      · simp [hy, hnot]
    · simp only [hx, false_and, and_false, if_false, false_or] at ih1 ih2 ⊢
      exact ⟨ih1, ih2⟩

/-- At most W bits in a row: the collision result is a set bit over a lit pixel (R63). -/
theorem xorBits_hit (s : State) (x y : Nat) (bs : List Bool) (hl : bs.length ≤ Config.width) :
    (s.xorBits x y bs).2 = true ↔ ∃ j, bs[j]? = some true ∧ s.pixel (x + j) y = true := by
  induction bs generalizing s x with
  | nil => simp [State.xorBits]
  | cons b bs ih =>
    simp only [List.length_cons] at hl
    have hrest : ∀ j, bs[j]? = some true →
        (s.xorPixel x y b).1.pixel (x + 1 + j) y = s.pixel (x + 1 + j) y := by
      intro j hj
      have hlt : j < bs.length := by
        by_contra hge
        rw [List.getElem?_eq_none (by omega)] at hj
        cases hj
      rw [xorPixel_pixel, if_neg]
      rintro ⟨h, -⟩
      simp only [Config.width] at *
      omega
    simp only [State.xorBits, Bool.or_eq_true, ih _ _ (by omega : bs.length ≤ Config.width)]
    constructor
    · rintro (h | ⟨j, hj, hp⟩)
      · simp only [State.xorPixel, Bool.and_eq_true] at h
        exact ⟨0, by simp [h.2], by simpa using h.1⟩
      · rw [hrest j hj] at hp
        exact ⟨j + 1, by simpa using hj, by rwa [show x + (j + 1) = x + 1 + j by omega]⟩
    · rintro ⟨j, hj, hp⟩
      cases j with
      | zero =>
        refine .inl ?_
        simp only [State.xorPixel, Bool.and_eq_true]
        exact ⟨by simpa using hp, by simpa using hj⟩
      | succ j =>
        have hj' : bs[j]? = some true := by simpa using hj
        exact .inr ⟨j, hj', by rw [hrest j hj']; rwa [show x + 1 + j = x + (j + 1) by omega]⟩

theorem spriteBits_getElem? (b : Byte) (j : Nat) :
    (spriteBits b)[j]? = some true ↔ j < 8 ∧ spriteBit b j = true := by
  by_cases h : j < 8
  · simp [spriteBits, h]
  · simp [spriteBits, h]

@[simp] theorem spriteBits_length (b : Byte) : (spriteBits b).length = 8 := rfl

/-! ### A sprite of several rows -/

theorem drawRows_error (s : State) (x y a n : Nat) (hn : 0 < n) (h : Config.memSize < a + n) :
    s.drawRows x y a n = .error (.memoryOutOfBounds (max a Config.memSize)) := by
  induction n generalizing s y a with
  | zero => omega
  | succ n ih =>
    by_cases ha : a < Config.memSize
    · simp only [State.drawRows, memRead_ok s ha]
      rw [ih _ (y + 1) (a + 1) (by omega) (by omega)]
      simp only
      congr 2
      omega
    · simp only [State.drawRows, memRead_error s (Nat.not_lt.mp ha)]
      congr 2
      omega

/-- A set bit of the `n` sprite rows at `a` covers the pixel (cx, cy). -/
def SpriteAt (m : Memory) (a n x y cx cy : Nat) : Prop :=
  ∃ k, k < n ∧ Covers (spriteBits (m.read (a + k))) x (y + k) cx cy

theorem spriteAt_succ (m : Memory) (a n x y cx cy : Nat) :
    SpriteAt m a (n + 1) x y cx cy ↔
      Covers (spriteBits (m.read a)) x y cx cy ∨ SpriteAt m (a + 1) n x (y + 1) cx cy := by
  constructor
  · rintro ⟨k, hk, hc⟩
    cases k with
    | zero => exact .inl hc
    | succ k =>
      exact .inr ⟨k, by omega, by
        rwa [show a + 1 + k = a + (k + 1) by omega, show y + 1 + k = y + (k + 1) by omega]⟩
  · rintro (hc | ⟨k, hk, hc⟩)
    · exact ⟨0, by omega, hc⟩
    · exact ⟨k + 1, by omega, by
        rwa [show a + (k + 1) = a + 1 + k by omega, show y + (k + 1) = y + 1 + k by omega]⟩

/-- Fewer rows than H: the later ones do not come back to the first one's row (R204). -/
theorem not_spriteAt_tail {m : Memory} {a n x y cx cy : Nat} (hn : n < Config.height)
    (hy : cy % Config.height = y % Config.height) : ¬ SpriteAt m (a + 1) n x (y + 1) cx cy := by
  rintro ⟨k, hk, hc, -⟩
  simp only [Config.height] at *
  omega

/-- All that drawing at most H rows does when every address is inside memory: each covered pixel is
toggled, every other one is as before; the result says whether a set bit fell on a lit pixel; `changed` is
set when there is a row; and nothing but the display changes (R201, R204). -/
theorem drawRows_ok (s : State) (x y a n : Nat) (hn : n ≤ Config.height)
    (h : n = 0 ∨ a + n ≤ Config.memSize) :
    ∃ t hit, s.drawRows x y a n = .ok (t, hit) ∧ OnlyDisplay s t ∧
      (t.changed = if n = 0 then s.changed else true) ∧
      (∀ cx cy, (SpriteAt s.mem a n x y cx cy → t.pixel cx cy = !s.pixel cx cy) ∧
        (¬ SpriteAt s.mem a n x y cx cy → t.pixel cx cy = s.pixel cx cy)) ∧
      (hit = true ↔ ∃ cx cy, SpriteAt s.mem a n x y cx cy ∧ s.pixel cx cy = true) := by
  induction n generalizing s y a with
  | zero =>
    refine ⟨s, false, rfl, .refl s, rfl, ?_, ?_⟩
    · intro cx cy
      exact ⟨fun ⟨k, hk, _⟩ => absurd hk (Nat.not_lt_zero k), fun _ => rfl⟩
    · simp [SpriteAt]
  | succ n ih =>
    have ha : a < Config.memSize := by omega
    let b := s.mem.read a
    have hf : OnlyDisplay s (s.xorRow x y b).1 := xorBits_frame s x y _
    have hmem : (s.xorRow x y b).1.mem = s.mem := by rw [hf]
    obtain ⟨t, hit, ht, htf, htc, htp, hth⟩ :=
      ih (s.xorRow x y b).1 (y + 1) (a + 1) (by omega) (by omega)
    rw [hmem] at htp hth
    have hl : (spriteBits b).length ≤ Config.width := by rw [spriteBits_length]; decide
    have hrow := fun cx cy => xorBits_pixel s x y (spriteBits b) hl cx cy
    have hchanged : (s.xorRow x y b).1.changed = true := xorBits_changed s x y (by simp [spriteBits])
    refine ⟨t, (s.xorRow x y b).2 || hit, ?_, hf.trans htf, ?_, ?_, ?_⟩
    · simp only [State.drawRows, memRead_ok s ha]
      rw [show s.mem.read a = b from rfl, ht]
    · rw [htc]; simp [hchanged]
    · intro cx cy
      rw [spriteAt_succ]
      have h1 := hrow cx cy
      have h2 := htp cx cy
      by_cases hy : cy % Config.height = y % Config.height
      · have hnot := not_spriteAt_tail (m := s.mem) (a := a) (x := x) (cx := cx) (n := n) (by omega) hy
        rw [h2.2 hnot]
        simp only [hnot, or_false]
        exact h1
      · have hnc : ¬ Covers (spriteBits (s.mem.read a)) x y cx cy := fun hc => hy hc.1
        have e : (s.xorRow x y b).1.pixel cx cy = s.pixel cx cy := h1.2 hnc
        simp only [hnc, false_or]
        rw [← e]
        exact h2
    · rw [Bool.or_eq_true, hth]
      have hsame : ∀ cx cy, SpriteAt s.mem (a + 1) n x (y + 1) cx cy →
          (s.xorRow x y b).1.pixel cx cy = s.pixel cx cy := fun cx cy hs =>
        (hrow cx cy).2 fun hc => not_spriteAt_tail (by omega) hc.1 hs
      rw [State.xorRow, xorBits_hit s x y (spriteBits b) hl]
      constructor
      · rintro (⟨j, hj, hp⟩ | ⟨cx, cy, hs, hp⟩)
        · exact ⟨x + j, y, (spriteAt_succ ..).mpr (.inl ⟨rfl, j, hj, rfl⟩), hp⟩
        · exact ⟨cx, cy, (spriteAt_succ ..).mpr (.inr hs), (hsame cx cy hs).symm.trans hp⟩
      · rintro ⟨cx, cy, hs, hp⟩
        rcases (spriteAt_succ ..).mp hs with ⟨hy, j, hj, hx⟩ | hs
        · exact .inl ⟨j, hj, (pixel_congr s hx hy).symm.trans hp⟩
        · exact .inr ⟨cx, cy, hs, (hsame cx cy hs).trans hp⟩

end Sys2Proof.Machine
end

