-- ==== Sys2Proof/Laws/PerInstr.lean ====
section
/-! SUPPORT. The family FitsItsRow: the word of every well-formed instruction fits, by the mask and match
columns of R85, the row of the table that bears the instruction's name. One lemma per constructor. -/

namespace Sys2Proof.Laws.FitsItsRow

/-- The encoding of `i` fits the row of its name (R85). -/
def Statement (i : Instr) : Prop :=
  i.wf = true → ∃ r ∈ opcodeRows, r.name = i.name ∧ r.fits (encode i) = true

theorem cls : Statement (.cls) := fun _ =>
  ⟨⟨"CLS", 0xFFFF, 0x00E0⟩, by decide, rfl, by decide⟩

theorem ret : Statement (.ret) := fun _ =>
  ⟨⟨"RET", 0xFFFF, 0x00EE⟩, by decide, rfl, by decide⟩

theorem sys (nnn : Addr) : Statement (.sys nnn) := fun _ =>
  ⟨⟨"SYS", 0xF000, 0x0000⟩, by decide, rfl, by
    rw [fits_op "SYS" 0x0 _ _ (by decide)]; simp [encode]⟩

theorem jp (nnn : Addr) : Statement (.jp nnn) := fun _ =>
  ⟨⟨"JP", 0xF000, 0x1000⟩, by decide, rfl, by
    rw [fits_op "JP" 0x1 _ _ (by decide)]; simp [encode]⟩

theorem call (nnn : Addr) : Statement (.call nnn) := fun _ =>
  ⟨⟨"CALL", 0xF000, 0x2000⟩, by decide, rfl, by
    rw [fits_op "CALL" 0x2 _ _ (by decide)]; simp [encode]⟩

theorem seImm (x : Nibble) (kk : Byte) : Statement (.seImm x kk) := fun _ =>
  ⟨⟨"SE-imm", 0xF000, 0x3000⟩, by decide, rfl, by
    rw [fits_op "SE-imm" 0x3 _ _ (by decide)]; simp [encode]⟩

theorem sneImm (x : Nibble) (kk : Byte) : Statement (.sneImm x kk) := fun _ =>
  ⟨⟨"SNE-imm", 0xF000, 0x4000⟩, by decide, rfl, by
    rw [fits_op "SNE-imm" 0x4 _ _ (by decide)]; simp [encode]⟩

theorem seReg (x y : Nibble) : Statement (.seReg x y) := fun _ =>
  ⟨⟨"SE-reg", 0xF00F, 0x5000⟩, by decide, rfl, by
    rw [fits_op_fn4 "SE-reg" 0x5 0x0 _ _ (by decide)]; simp [encode]⟩

theorem ldImm (x : Nibble) (kk : Byte) : Statement (.ldImm x kk) := fun _ =>
  ⟨⟨"LD-imm", 0xF000, 0x6000⟩, by decide, rfl, by
    rw [fits_op "LD-imm" 0x6 _ _ (by decide)]; simp [encode]⟩

theorem addImm (x : Nibble) (kk : Byte) : Statement (.addImm x kk) := fun _ =>
  ⟨⟨"ADD-imm", 0xF000, 0x7000⟩, by decide, rfl, by
    rw [fits_op "ADD-imm" 0x7 _ _ (by decide)]; simp [encode]⟩

theorem ldReg (x y : Nibble) : Statement (.ldReg x y) := fun _ =>
  ⟨⟨"LD-reg", 0xF00F, 0x8000⟩, by decide, rfl, by
    rw [fits_op_fn4 "LD-reg" 0x8 0x0 _ _ (by decide)]; simp [encode]⟩

theorem orReg (x y : Nibble) : Statement (.orReg x y) := fun _ =>
  ⟨⟨"OR", 0xF00F, 0x8001⟩, by decide, rfl, by
    rw [fits_op_fn4 "OR" 0x8 0x1 _ _ (by decide)]; simp [encode]⟩

theorem andReg (x y : Nibble) : Statement (.andReg x y) := fun _ =>
  ⟨⟨"AND", 0xF00F, 0x8002⟩, by decide, rfl, by
    rw [fits_op_fn4 "AND" 0x8 0x2 _ _ (by decide)]; simp [encode]⟩

theorem xorReg (x y : Nibble) : Statement (.xorReg x y) := fun _ =>
  ⟨⟨"XOR", 0xF00F, 0x8003⟩, by decide, rfl, by
    rw [fits_op_fn4 "XOR" 0x8 0x3 _ _ (by decide)]; simp [encode]⟩

theorem addReg (x y : Nibble) : Statement (.addReg x y) := fun _ =>
  ⟨⟨"ADD-reg", 0xF00F, 0x8004⟩, by decide, rfl, by
    rw [fits_op_fn4 "ADD-reg" 0x8 0x4 _ _ (by decide)]; simp [encode]⟩

theorem sub (x y : Nibble) : Statement (.sub x y) := fun _ =>
  ⟨⟨"SUB", 0xF00F, 0x8005⟩, by decide, rfl, by
    rw [fits_op_fn4 "SUB" 0x8 0x5 _ _ (by decide)]; simp [encode]⟩

theorem shr (x y : Nibble) : Statement (.shr x y) := fun _ =>
  ⟨⟨"SHR", 0xF00F, 0x8006⟩, by decide, rfl, by
    rw [fits_op_fn4 "SHR" 0x8 0x6 _ _ (by decide)]; simp [encode]⟩

theorem subn (x y : Nibble) : Statement (.subn x y) := fun _ =>
  ⟨⟨"SUBN", 0xF00F, 0x8007⟩, by decide, rfl, by
    rw [fits_op_fn4 "SUBN" 0x8 0x7 _ _ (by decide)]; simp [encode]⟩

theorem shl (x y : Nibble) : Statement (.shl x y) := fun _ =>
  ⟨⟨"SHL", 0xF00F, 0x800E⟩, by decide, rfl, by
    rw [fits_op_fn4 "SHL" 0x8 0xE _ _ (by decide)]; simp [encode]⟩

theorem sneReg (x y : Nibble) : Statement (.sneReg x y) := fun _ =>
  ⟨⟨"SNE-reg", 0xF00F, 0x9000⟩, by decide, rfl, by
    rw [fits_op_fn4 "SNE-reg" 0x9 0x0 _ _ (by decide)]; simp [encode]⟩

theorem ldI (nnn : Addr) : Statement (.ldI nnn) := fun _ =>
  ⟨⟨"LD_I", 0xF000, 0xA000⟩, by decide, rfl, by
    rw [fits_op "LD_I" 0xA _ _ (by decide)]; simp [encode]⟩

theorem jpV0 (nnn : Addr) : Statement (.jpV0 nnn) := fun _ =>
  ⟨⟨"JP_V0+addr", 0xF000, 0xB000⟩, by decide, rfl, by
    rw [fits_op "JP_V0+addr" 0xB _ _ (by decide)]; simp [encode]⟩

theorem rnd (x : Nibble) (kk : Byte) : Statement (.rnd x kk) := fun _ =>
  ⟨⟨"RND", 0xF000, 0xC000⟩, by decide, rfl, by
    rw [fits_op "RND" 0xC _ _ (by decide)]; simp [encode]⟩

theorem drw (x y n : Nibble) : Statement (.drw x y n) := fun _ =>
  ⟨⟨"DRW", 0xF000, 0xD000⟩, by decide, rfl, by
    rw [fits_op "DRW" 0xD _ _ (by decide)]; simp [encode]⟩

theorem skp (x : Nibble) : Statement (.skp x) := fun _ =>
  ⟨⟨"SKP", 0xF0FF, 0xE09E⟩, by decide, rfl, by
    rw [fits_op_fn8 "SKP" 0xE 0x9E _ _ (by decide)]; simp [encode]⟩

theorem sknp (x : Nibble) : Statement (.sknp x) := fun _ =>
  ⟨⟨"SKNP", 0xF0FF, 0xE0A1⟩, by decide, rfl, by
    rw [fits_op_fn8 "SKNP" 0xE 0xA1 _ _ (by decide)]; simp [encode]⟩

theorem ldVxDt (x : Nibble) : Statement (.ldVxDt x) := fun _ =>
  ⟨⟨"LD_Vx_DT", 0xF0FF, 0xF007⟩, by decide, rfl, by
    rw [fits_op_fn8 "LD_Vx_DT" 0xF 0x07 _ _ (by decide)]; simp [encode]⟩

theorem ldVxK (x : Nibble) : Statement (.ldVxK x) := fun _ =>
  ⟨⟨"LD_Vx_K", 0xF0FF, 0xF00A⟩, by decide, rfl, by
    rw [fits_op_fn8 "LD_Vx_K" 0xF 0x0A _ _ (by decide)]; simp [encode]⟩

theorem ldDtVx (x : Nibble) : Statement (.ldDtVx x) := fun _ =>
  ⟨⟨"LD_DT_Vx", 0xF0FF, 0xF015⟩, by decide, rfl, by
    rw [fits_op_fn8 "LD_DT_Vx" 0xF 0x15 _ _ (by decide)]; simp [encode]⟩

theorem ldStVx (x : Nibble) : Statement (.ldStVx x) := fun _ =>
  ⟨⟨"LD_ST_Vx", 0xF0FF, 0xF018⟩, by decide, rfl, by
    rw [fits_op_fn8 "LD_ST_Vx" 0xF 0x18 _ _ (by decide)]; simp [encode]⟩

theorem addIVx (x : Nibble) : Statement (.addIVx x) := fun _ =>
  ⟨⟨"ADD_I_Vx", 0xF0FF, 0xF01E⟩, by decide, rfl, by
    rw [fits_op_fn8 "ADD_I_Vx" 0xF 0x1E _ _ (by decide)]; simp [encode]⟩

theorem ldF (x : Nibble) : Statement (.ldF x) := fun _ =>
  ⟨⟨"LD_I_Fx", 0xF0FF, 0xF029⟩, by decide, rfl, by
    rw [fits_op_fn8 "LD_I_Fx" 0xF 0x29 _ _ (by decide)]; simp [encode]⟩

theorem bcd (x : Nibble) : Statement (.bcd x) := fun _ =>
  ⟨⟨"BCD", 0xF0FF, 0xF033⟩, by decide, rfl, by
    rw [fits_op_fn8 "BCD" 0xF 0x33 _ _ (by decide)]; simp [encode]⟩

theorem storeRegs (x : Nibble) : Statement (.storeRegs x) := fun _ =>
  ⟨⟨"LD__I__Vx", 0xF0FF, 0xF055⟩, by decide, rfl, by
    rw [fits_op_fn8 "LD__I__Vx" 0xF 0x55 _ _ (by decide)]; simp [encode]⟩

theorem loadRegs (x : Nibble) : Statement (.loadRegs x) := fun _ =>
  ⟨⟨"LD_Vx__I", 0xF0FF, 0xF065⟩, by decide, rfl, by
    rw [fits_op_fn8 "LD_Vx__I" 0xF 0x65 _ _ (by decide)]; simp [encode]⟩

end Sys2Proof.Laws.FitsItsRow
end

