-- ==== Sys2Proof/Laws/Step.lean ====
section
/-! SUPPORT. What an instruction, a `cpu_step` and a transaction can do, said once: each lemma lists every
way to answer a next state, so that claims over all instructions cite it. -/

namespace Sys2Proof.Machine

/-! ### Frames -/

theorem ChangesOnly.refl (regs : List Nibble) (parts : List Part) (s : State) :
    ChangesOnly regs parts s s := by
  constructor <;> intros <;> rfl

theorem ChangesOnly.trans {regs parts} {s t u : State} (h : ChangesOnly regs parts s t)
    (h' : ChangesOnly regs parts t u) : ChangesOnly regs parts s u where
  v j hj := (h'.v j hj).trans (h.v j hj)
  i p := (h'.i p).trans (h.i p)
  pc p := (h'.pc p).trans (h.pc p)
  stack p := (h'.stack p).trans (h.stack p)
  dt p := (h'.dt p).trans (h.dt p)
  st p := (h'.st p).trans (h.st p)
  mode p := (h'.mode p).trans (h.mode p)
  mem p a := (h'.mem p a).trans (h.mem p a)
  pix p x y := (h'.pix p x y).trans (h.pix p x y)
  changed p := (h'.changed p).trans (h.changed p)
  draws p := (h'.draws p).trans (h.draws p)
  reports p := (h'.reports p).trans (h.reports p)
  keys := h'.keys.trans h.keys
  fatal := h'.fatal.trans h.fatal
  stackDepth := h'.stackDepth.trans h.stackDepth
  host := h'.host.trans h.host

/-- A wider frame holds too. -/
theorem ChangesOnly.mono {regs regs' parts parts'} {s t : State} (h : ChangesOnly regs parts s t)
    (hr : regs ⊆ regs') (hp : parts ⊆ parts') : ChangesOnly regs' parts' s t where
  v j hj := h.v j fun m => hj (hr m)
  i p := h.i fun m => p (hp m)
  pc p := h.pc fun m => p (hp m)
  stack p := h.stack fun m => p (hp m)
  dt p := h.dt fun m => p (hp m)
  st p := h.st fun m => p (hp m)
  mode p := h.mode fun m => p (hp m)
  mem p := h.mem fun m => p (hp m)
  pix p := h.pix fun m => p (hp m)
  changed p := h.changed fun m => p (hp m)
  draws p := h.draws fun m => p (hp m)
  reports p := h.reports fun m => p (hp m)
  keys := h.keys
  fatal := h.fatal
  stackDepth := h.stackDepth
  host := h.host

theorem setV_frame (s : State) (x : Nibble) (b : Byte) : ChangesOnly [x] [] s (s.setV x b) := by
  constructor <;> intros <;> first | rfl | skip
  rename_i j hj
  exact getV_setV_of_ne s b (by simpa using hj)

theorem setVf_frame (s : State) (b : Bool) : ChangesOnly [vf] [] s (s.setVf b) := setV_frame s vf _

/-- A register and then the flag (R156, R157, R159). -/
theorem flagged_frame (s : State) (x : Nibble) (b : Byte) (c : Bool) :
    ChangesOnly [x, vf] [] s ((s.setV x b).setVf c) :=
  ((setV_frame s x b).mono (by simp) (by simp)).trans ((setVf_frame _ c).mono (by simp) (by simp))

/-- The flag and then a register (R158, R160). -/
theorem shifted_frame (s : State) (x : Nibble) (b : Byte) (c : Bool) :
    ChangesOnly [x, vf] [] s ((s.setVf c).setV x b) :=
  ((setVf_frame s c).mono (by simp) (by simp)).trans ((setV_frame _ x b).mono (by simp) (by simp))

theorem setPc_frame (s : State) (a : Word) : ChangesOnly [] [.pc] s (s.setPc a) := by
  constructor <;> intros <;> first | rfl | simp_all

theorem setI_frame (s : State) (a : Word) : ChangesOnly [] [.i] s (s.setI a) := by
  constructor <;> intros <;> first | rfl | simp_all

theorem setDt_frame (s : State) (b : Byte) : ChangesOnly [] [.dt] s (s.setDt b) := by
  constructor <;> intros <;> first | rfl | simp_all

theorem setSt_frame (s : State) (b : Byte) : ChangesOnly [] [.st] s (s.setSt b) := by
  constructor <;> intros <;> first | rfl | simp_all

theorem setMode_frame (s : State) (m : Mode) : ChangesOnly [] [.mode] s (s.setMode m) := by
  constructor <;> intros <;> first | rfl | simp_all

theorem push_frame (s : State) (a : Word) : ChangesOnly [] [.stack] s (s.push a) := by
  constructor <;> intros <;> first | rfl | simp_all

theorem report_frame (s : State) (k : ReportKind) (w : Word) :
    ChangesOnly [] [.reports] s (s.report k w) := by
  constructor <;> intros <;> first | rfl | simp_all

theorem drawRandom_frame (s : State) : ChangesOnly [] [.draws] s s.drawRandom.2 := by
  constructor <;> intros <;> first | rfl | simp_all

theorem dispClear_frame (s : State) : ChangesOnly [] [.pix, .changed] s s.dispClear := by
  constructor <;> intros <;> first | rfl | simp_all

theorem skipIf_frame (s : State) (c : Bool) : ChangesOnly [] [.pc] s (s.skipIf c) := by
  cases c
  · exact .refl _ _ _
  · exact setPc_frame _ _

theorem mem_frame (s : State) (m : Memory) : ChangesOnly [] [.mem] s { s with mem := m } := by
  constructor <;> intros <;> first | rfl | simp_all

theorem OnlyDisplay.frame {s t : State} (h : OnlyDisplay s t) :
    ChangesOnly [] [.pix, .changed] s t := by
  rw [h]
  constructor <;> intros <;> first | rfl | simp_all

/-! ### Shared operations -/

/-- Storing bytes answers either a memory that is canonical if it was, or the fault of an address outside
memory. -/
theorem storeBytes_cases (s : State) (a : Nat) (bs : List Byte) :
    (∃ m : Memory, s.storeBytes a bs = .ok { s with mem := m } ∧ (s.mem.wf = true → m.wf = true)) ∨
    ∃ c, Config.memSize ≤ c ∧ s.storeBytes a bs = .error (.memoryOutOfBounds c) := by
  by_cases h : a + bs.length ≤ Config.memSize
  · obtain ⟨m, hm, -, -, hwf⟩ := storeBytes_ok s a bs h
    exact .inl ⟨m, hm, hwf⟩
  · by_cases hbs : bs = []
    · subst hbs; exact .inl ⟨s.mem, rfl, id⟩
    · exact .inr ⟨_, Nat.le_max_right .., storeBytes_error s a bs hbs (by omega)⟩

/-- Loading the registers V0 to V[n-1] answers either a state with other V registers, where those from V[n]
on are as before, or the fault of an address outside memory. -/
theorem loadFrom_cases (s : State) (a n : Nat) (hn : n ≤ 16) :
    (∃ v : Vector Byte 16, s.loadFrom a 0 n = .ok { s with v := v } ∧
      ∀ j : Nibble, n ≤ j.toNat → ({ s with v := v } : State).getV j = s.getV j) ∨
    ∃ c, Config.memSize ≤ c ∧ s.loadFrom a 0 n = .error (.memoryOutOfBounds c) := by
  by_cases h : a + n ≤ Config.memSize
  · obtain ⟨v, hv, hj⟩ := loadFrom_ok s a 0 n (by omega) (by omega)
    exact .inl ⟨v, hv, fun j h' => by rw [hj, if_neg (by omega)]⟩
  · by_cases h0 : n = 0
    · subst h0; exact .inl ⟨s.v, rfl, fun _ _ => rfl⟩
    · exact .inr ⟨_, Nat.le_max_right .., loadFrom_error s a 0 n (by omega) (by omega)⟩

/-- Drawing rows answers either a state that differs in the display alone, or the fault of an address
outside memory. -/
theorem drawRows_cases (s : State) (x y a n : Nat) (hn : n ≤ Config.height) :
    (∃ t hit, s.drawRows x y a n = .ok (t, hit) ∧ OnlyDisplay s t ∧
      (t.changed = true ∨ t.changed = s.changed)) ∨
    ∃ c, Config.memSize ≤ c ∧ s.drawRows x y a n = .error (.memoryOutOfBounds c) := by
  by_cases h : n = 0 ∨ a + n ≤ Config.memSize
  · obtain ⟨t, hit, ht, hd, hc, -, -⟩ := drawRows_ok s x y a n hn h
    refine .inl ⟨t, hit, ht, hd, ?_⟩
    rw [hc]; split
    · exact .inr rfl
    · exact .inl rfl
  · exact .inr ⟨_, Nat.le_max_right .., drawRows_error s x y a n (by omega) (by omega)⟩

/-- The lowest pressed key is what the scan finds (R67). -/
theorem keyScan_some (s : State) (k : Nibble) : s.keyScan = some k ↔ s.lowestKey k := by
  simp only [State.keyScan, State.lowestKey, List.find?_eq_some_iff_getElem, List.length_map,
    List.length_range, List.getElem_map, List.getElem_range, Bool.not_eq_true']
  constructor
  · rintro ⟨hk, i, hi, rfl, hlt⟩
    refine ⟨hk, fun j hj => ?_⟩
    have := hlt j.toNat (by simp at hj; omega)
    simpa using this
  · rintro ⟨hk, hlt⟩
    refine ⟨hk, k.toNat, k.isLt, by simp, fun j hj => hlt _ ?_⟩
    have := k.isLt
    simp; omega

theorem keyScan_none (s : State) : s.keyScan = none ↔ ∀ k, s.keyPressed k = false := by
  simp only [State.keyScan, List.find?_eq_none, List.mem_map, List.mem_range, Bool.not_eq_true]
  constructor
  · exact fun h k => h k ⟨k.toNat, k.isLt, by simp⟩
  · exact fun h k _ => h k

/-! ### Instructions -/

/-- The V registers that an instruction may write (R21). -/
def footV : Instr → List Nibble
  | .ldImm x _ | .addImm x _ | .ldReg x _ | .orReg x _ | .andReg x _ | .xorReg x _ | .rnd x _
  | .ldVxDt x | .ldVxK x => [x]
  | .addReg x _ | .sub x _ | .subn x _ | .shr x _ | .shl x _ => [x, vf]
  | .drw _ _ _ => [vf]
  | .loadRegs x => registersUpTo x
  | _ => []

/-- The other parts of the state that an instruction may write (R104). -/
def footParts : Instr → List Part
  | .cls => [.pix, .changed]
  | .ret => [.pc, .stack, .reports]
  | .sys _ => [.reports]
  | .jp _ | .jpV0 _ | .seImm _ _ | .sneImm _ _ | .seReg _ _ | .sneReg _ _ | .skp _ | .sknp _ => [.pc]
  | .call _ => [.pc, .stack]
  | .ldI _ | .addIVx _ | .ldF _ => [.i]
  | .rnd _ _ => [.draws]
  | .drw _ _ _ => [.pix, .changed]
  | .ldVxK _ => [.mode]
  | .ldDtVx _ => [.dt]
  | .ldStVx _ => [.st]
  | .bcd _ | .storeRegs _ => [.mem]
  | _ => []

theorem mem_registersUpTo (x j : Nibble) : j ∈ registersUpTo x ↔ j.toNat ≤ x.toNat := by
  simp only [registersUpTo, List.mem_map, List.mem_range]
  constructor
  · rintro ⟨k, hk, rfl⟩
    have := x.isLt
    simp; omega
  · intro h
    exact ⟨j.toNat, by omega, by simp⟩

/-- An instruction that answers a next state changes nothing outside its footprint. -/
theorem exec_frame (i : Instr) (s t : State) (h : exec i s = .next t) :
    ChangesOnly (footV i) (footParts i) s t := by
  cases i <;> simp only [exec] at h <;> simp only [footV, footParts]
  case cls => cases h; exact dispClear_frame s
  case ret =>
    simp only [execRet] at h
    split at h <;> cases h
    · exact (report_frame s _ _).mono (by simp) (by simp)
    · constructor <;> intros <;> first | rfl | simp_all
  case sys => cases h; exact report_frame s _ _
  case jp => cases h; exact setPc_frame s _
  case jpV0 => cases h; exact setPc_frame s _
  case call =>
    simp only [execCall, raiseFatal] at h
    split at h <;> cases h
    exact ((push_frame s _).mono (by simp) (by simp)).trans
      ((setPc_frame _ _).mono (by simp) (by simp))
  case seImm => cases h; exact skipIf_frame s _
  case sneImm => cases h; exact skipIf_frame s _
  case seReg => cases h; exact skipIf_frame s _
  case sneReg => cases h; exact skipIf_frame s _
  case skp =>
    simp only [execSkp, skipOnKey, raiseFatal] at h
    split at h <;> cases h
    exact skipIf_frame s _
  case sknp =>
    simp only [execSknp, skipOnKey, raiseFatal] at h
    split at h <;> cases h
    exact skipIf_frame s _
  case ldImm => cases h; exact setV_frame s _ _
  case addImm => cases h; exact setV_frame s _ _
  case ldReg => cases h; exact setV_frame s _ _
  case orReg => cases h; exact setV_frame s _ _
  case andReg => cases h; exact setV_frame s _ _
  case xorReg => cases h; exact setV_frame s _ _
  case ldVxDt => cases h; exact setV_frame s _ _
  case addReg => cases h; exact flagged_frame s _ _ _
  case sub => cases h; exact flagged_frame s _ _ _
  case subn => cases h; exact flagged_frame s _ _ _
  case shr => cases h; exact shifted_frame s _ _ _
  case shl => cases h; exact shifted_frame s _ _ _
  case rnd =>
    cases h
    exact ((drawRandom_frame s).mono (by simp) (by simp)).trans
      ((setV_frame _ _ _).mono (by simp) (by simp))
  case ldI => cases h; exact setI_frame s _
  case addIVx => cases h; exact setI_frame s _
  case ldF => cases h; exact setI_frame s _
  case ldDtVx => cases h; exact setDt_frame s _
  case ldStVx => cases h; exact setSt_frame s _
  case ldVxK =>
    simp only [execLdVxK] at h
    split at h <;> cases h
    · exact (setV_frame s _ _).mono (by simp) (by simp)
    · exact (setMode_frame s _).mono (by simp) (by simp)
  case drw x y n =>
    have hn : n.toNat ≤ Config.height := by have := n.isLt; simp only [Config.height]; omega
    rcases drawRows_cases s (s.getV x).toNat (s.getV y).toNat s.base n.toNat hn with
      ⟨u, hit, hu, hd, -⟩ | ⟨c, -, hc⟩
    · simp only [execDrw, hu] at h
      cases h
      exact (hd.frame.mono (by simp) (by simp)).trans ((setVf_frame _ _).mono (by simp) (by simp))
    · simp [execDrw, hc, raiseFatal] at h
  case bcd x =>
    rcases storeBytes_cases s s.base (decimalDigits (s.getV x)) with ⟨m, hm, -⟩ | ⟨c, -, hc⟩
    · simp only [execBcd, hm, answerOf] at h
      cases h
      exact mem_frame s m
    · simp [execBcd, hc, answerOf, raiseFatal] at h
  case storeRegs x =>
    rcases storeBytes_cases s s.base (s.firstV x) with ⟨m, hm, -⟩ | ⟨c, -, hc⟩
    · simp only [execStoreRegs, hm, answerOf] at h
      cases h
      exact mem_frame s m
    · simp [execStoreRegs, hc, answerOf, raiseFatal] at h
  case loadRegs x =>
    have hx := x.isLt
    rcases loadFrom_cases s s.base (x.toNat + 1) (by omega) with ⟨v, hv, hj⟩ | ⟨c, -, hc⟩
    · simp only [execLoadRegs, hv, answerOf] at h
      cases h
      constructor <;> intros <;> first | rfl | skip
      rename_i j hj'
      exact hj j (by rw [mem_registersUpTo] at hj'; omega)
    · simp [execLoadRegs, hc, answerOf, raiseFatal] at h

/-- An instruction answers a next state, or one of the fatal faults of R234 for its reason: a key index
only in SKP and SKNP, a full stack only in CALL. It never refuses. -/
theorem exec_answers (i : Instr) (s : State) :
    (∃ t, exec i s = .next t) ∨
    (∃ c, Config.memSize ≤ c ∧ exec i s = .fault (.memoryOutOfBounds c)) ∨
    (∃ x, (i = .skp x ∨ i = .sknp x) ∧ 16 ≤ (s.getV x).toNat ∧
      exec i s = .fault (.keyIndexOutOfRange (s.getV x))) ∨
    (s.stackFull = true ∧ (∃ nnn, i = .call nnn) ∧ exec i s = .fault (.stackOverflow s.instrAddr)) := by
  cases i
  case call nnn =>
    by_cases hf : s.stackFull = true
    · exact .inr (.inr (.inr ⟨hf, ⟨nnn, rfl⟩, by simp [exec, execCall, hf, raiseFatal]⟩))
    · exact .inl ⟨_, by simp [exec, execCall, hf]; rfl⟩
  case skp x =>
    by_cases hk : (s.getV x).toNat < 16
    · exact .inl ⟨_, by simp [exec, execSkp, skipOnKey, hk]; rfl⟩
    · exact .inr (.inr (.inl ⟨x, .inl rfl, by omega, by simp [exec, execSkp, skipOnKey, hk, raiseFatal]⟩))
  case sknp x =>
    by_cases hk : (s.getV x).toNat < 16
    · exact .inl ⟨_, by simp [exec, execSknp, skipOnKey, hk]; rfl⟩
    · exact .inr (.inr (.inl ⟨x, .inr rfl, by omega, by simp [exec, execSknp, skipOnKey, hk, raiseFatal]⟩))
  case drw x y n =>
    have hn : n.toNat ≤ Config.height := by have := n.isLt; simp only [Config.height]; omega
    rcases drawRows_cases s (s.getV x).toNat (s.getV y).toNat s.base n.toNat hn with
      ⟨u, hit, hu, -, -⟩ | ⟨c, hge, hc⟩
    · exact .inl ⟨_, by simp [exec, execDrw, hu]; rfl⟩
    · exact .inr (.inl ⟨c, hge, by simp [exec, execDrw, hc, raiseFatal]⟩)
  case bcd x =>
    rcases storeBytes_cases s s.base (decimalDigits (s.getV x)) with ⟨m, hm, -⟩ | ⟨c, hge, hc⟩
    · exact .inl ⟨_, by simp [exec, execBcd, hm, answerOf]; rfl⟩
    · exact .inr (.inl ⟨c, hge, by simp [exec, execBcd, hc, answerOf, raiseFatal]⟩)
  case storeRegs x =>
    rcases storeBytes_cases s s.base (s.firstV x) with ⟨m, hm, -⟩ | ⟨c, hge, hc⟩
    · exact .inl ⟨_, by simp [exec, execStoreRegs, hm, answerOf]; rfl⟩
    · exact .inr (.inl ⟨c, hge, by simp [exec, execStoreRegs, hc, answerOf, raiseFatal]⟩)
  case loadRegs x =>
    have hx := x.isLt
    rcases loadFrom_cases s s.base (x.toNat + 1) (by omega) with ⟨v, hv, -⟩ | ⟨c, hge, hc⟩
    · exact .inl ⟨_, by simp [exec, execLoadRegs, hv, answerOf]; rfl⟩
    · exact .inr (.inl ⟨c, hge, by simp [exec, execLoadRegs, hc, answerOf, raiseFatal]⟩)
  case ret => simp only [exec, execRet]; split <;> exact .inl ⟨_, rfl⟩
  case ldVxK => simp only [exec, execLdVxK]; split <;> exact .inl ⟨_, rfl⟩
  all_goals exact .inl ⟨_, rfl⟩

/-! ### The cycle -/

theorem fetch_ok (s : State) (h : s.pc.toNat + 1 < Config.memSize) : s.fetch = .ok s.wordAtPc := by
  simp [State.fetch, memRead_ok s (show s.pc.toNat < Config.memSize by omega), memRead_ok s h,
    State.wordAtPc]

/-- A fetch answers the word at PC, or the fault of an address outside memory. -/
theorem fetch_cases (s : State) :
    (s.pc.toNat + 1 < Config.memSize ∧ s.fetch = .ok s.wordAtPc) ∨
    ∃ c, Config.memSize ≤ c ∧ s.fetch = .error (.memoryOutOfBounds c) := by
  by_cases h : s.pc.toNat + 1 < Config.memSize
  · exact .inl ⟨h, fetch_ok s h⟩
  · by_cases h0 : s.pc.toNat < Config.memSize
    · exact .inr ⟨_, Nat.not_lt.mp h, by
        simp [State.fetch, memRead_ok s h0, memRead_error s (Nat.not_lt.mp h)]⟩
    · exact .inr ⟨_, Nat.not_lt.mp h0, by simp [State.fetch, memRead_error s (Nat.not_lt.mp h0)]⟩

/-- A `cpu_step` of a state that fetches decodes and executes the word at PC (R100). -/
theorem cpuStep_fetches {s : State} (h : s.fetches) :
    cpuStep s = execWord s.wordAtPc (s.setPc (s.pc + 2)) := by
  obtain ⟨hf, hm, hp⟩ := h
  simp [cpuStep, hf, hm, fetch_ok s hp]

/-- Every way a `cpu_step` answers a next state: the session has ended; the CPU polls for a key; an
instruction runs; an undefined word is reported. -/
theorem cpuStep_cases {s t : State} (h : cpuStep s = .next t) :
    (s.fatal ≠ none ∧ t = s) ∨
    (s.fatal = none ∧ ∃ x, s.mode = .awaitKey x ∧ t = awaitStep x s) ∨
    (s.fetches ∧ ∃ i, decode s.wordAtPc = .ok i ∧ exec i (s.setPc (s.pc + 2)) = .next t) ∨
    (s.fetches ∧ (∃ e, decode s.wordAtPc = .error e) ∧
      t = (s.setPc (s.pc + 2)).report .undefinedInstruction s.wordAtPc) := by
  rcases hfat : s.fatal with _ | r
  · rcases hm : s.mode with _ | x
    · rcases fetch_cases s with ⟨hp, hw⟩ | ⟨c, -, hc⟩
      · have hs : s.fetches := ⟨hfat, hm, hp⟩
        rw [cpuStep_fetches hs, execWord] at h
        split at h
        · rename_i i hi
          exact .inr (.inr (.inl ⟨hs, i, hi, h⟩))
        · rename_i e he
          cases h
          exact .inr (.inr (.inr ⟨hs, ⟨e, he⟩, rfl⟩))
      · simp [cpuStep, hfat, hm, hc, raiseFatal] at h
    · simp only [cpuStep, hfat, hm] at h
      cases h
      exact .inr (.inl ⟨rfl, x, rfl, rfl⟩)
  · simp only [cpuStep, hfat] at h
    cases h
    exact .inl ⟨by simp, rfl⟩

/-- A poll changes nothing outside the awaited register and the mode (R108). -/
theorem awaitStep_frame (x : Nibble) (s : State) : ChangesOnly [x] [.mode] s (awaitStep x s) := by
  unfold awaitStep
  split
  · exact .refl _ _ _
  · exact ((setV_frame s x _).mono (by simp) (by simp)).trans
      ((setMode_frame _ _).mono (by simp) (by simp))

/-- One step is the first transaction of the host's list, or a `cpu_step` (R256). -/
theorem step_eq (s : State) :
    step s = (match s.host with
      | [] => cpuStep s
      | t :: rest => transact t { s with host := rest }) := by
  unfold step nextTransaction transact
  rfl

end Sys2Proof.Machine
end

