-- ==== Sys2Proof/Tests/Slice0.lean ====
section
/-! SUPPORT. Tests on small states, each about one step, with expected results from the worked examples (W)
and vectors (V) of 95_test_vectors.md or from a rule's own example; and, for each statement with
hypotheses, a state and operands that meet them together (test_hyp_<statement>). -/

namespace Sys2Proof.Tests

open Sys2Proof.Machine

/-- The state after the fetch of an instruction at 0x200. -/
def at202 : State := { State.reset with pc := 0x202 }

/-- A field of the next state that an answer holds. -/
def got {α : Type} (a : Answer) (f : State → α) : Option α :=
  match a with
  | .next s => some (f s)
  | _ => none

/-- The fault that an answer holds. -/
def faultOf (a : Answer) : Option Fault :=
  match a with
  | .fault r => some r
  | _ => none

/-- The state whose next step fetches the word `w` at 0x200. -/
def fetching (w : Nat) : State := State.reset.withFetchWord 16 w

/-! ### Well-formedness: the one check refuses the words of CLS and RET (R84) -/

theorem test_wf_refuses_cls_word : (Instr.sys 0x0E0).wf = false := by decide
theorem test_wf_refuses_ret_word : (Instr.sys 0x0EE).wf = false := by decide
theorem test_wf_accepts_neighbour : (Instr.sys 0x0E1).wf = true := by decide

/-! ### Decoding: every constructor by a word written out from R85, and encoding it back -/

/-- A word decodes to an instruction, and the instruction encodes to the word. -/
def pairs (w : Word) (i : Instr) : Bool := decide (decode w = .ok i) && (encode i == w)

theorem test_decode_flow :
    pairs 0b0000000011101110 .ret ∧ pairs 0b0000111011101110 (.sys 0xEEE) ∧
    pairs 0b0001101010111100 (.jp 0xABC) ∧ pairs 0b0010001100000000 (.call 0x300) ∧
    pairs 0b1011111111111111 (.jpV0 0xFFF) := by decide
theorem test_decode_skips :
    pairs 0b0011001100010010 (.seImm 3 0x12) ∧ pairs 0b0100001100010010 (.sneImm 3 0x12) ∧
    pairs 0b0101000100100000 (.seReg 1 2) ∧ pairs 0b1001000100100000 (.sneReg 1 2) := by decide
theorem test_decode_loads_and_logic :
    pairs 0b0110101010011100 (.ldImm 0xA 0x9C) ∧ pairs 0b0111000000000010 (.addImm 0 0x02) ∧
    pairs 0b1000000000010000 (.ldReg 0 1) ∧ pairs 0b1000000000010001 (.orReg 0 1) ∧
    pairs 0b1000000000010010 (.andReg 0 1) ∧ pairs 0b1000000000010011 (.xorReg 0 1) := by decide
theorem test_decode_arithmetic :
    pairs 0b1000111100010100 (.addReg 0xF 1) ∧ pairs 0b1000000000010101 (.sub 0 1) ∧
    pairs 0b1000000000010110 (.shr 0 1) ∧ pairs 0b1000000000010111 (.subn 0 1) ∧
    pairs 0b1000000000011110 (.shl 0 1) ∧ pairs 0b1100001100001111 (.rnd 3 0x0F) := by decide
theorem test_decode_index_memory :
    pairs 0b1010000100100011 (.ldI 0x123) ∧ pairs 0b1111001000011110 (.addIVx 2) ∧
    pairs 0b1111000000101001 (.ldF 0) ∧ pairs 0b1111010100110011 (.bcd 5) ∧
    pairs 0b1111000101010101 (.storeRegs 1) ∧ pairs 0b1111001001100101 (.loadRegs 2) := by decide
theorem test_decode_display :
    pairs 0b0000000011100000 .cls ∧ pairs 0b1101000100100101 (.drw 1 2 5) := by decide
theorem test_decode_timers_keys :
    pairs 0b1110001010011110 (.skp 2) ∧ pairs 0b1110001010100001 (.sknp 2) ∧
    pairs 0b1111001100000111 (.ldVxDt 3) ∧ pairs 0b1111010000001010 (.ldVxK 4) ∧
    pairs 0b1111000000010101 (.ldDtVx 0) ∧ pairs 0b1111000100011000 (.ldStVx 1) := by decide
/-- V1 to V4: undefined words. -/
theorem test_decode_undefined :
    decode 0x5121 = .error (.undefinedWord 0x5121) ∧ decode 0x8128 = .error (.undefinedWord 0x8128) ∧
    decode 0xE1FF = .error (.undefinedWord 0xE1FF) ∧ decode 0xF1FF = .error (.undefinedWord 0xF1FF) := by
  decide
theorem test_decode_bytes :
    decodeBytes [0x6A, 0x9C, 0x12] = .ok (.ldImm 0xA 0x9C, [0x12]) ∧
    decodeBytes [0x6A] = .error .truncated := by decide
theorem test_table_word :
    decodeTableWord 16 0x00E0 = some .cls ∧ decodeTableWord 16 0xF065 = some (.loadRegs 0) ∧
    decodeTableWord 16 0x5001 = none := by decide

/-! ### The cycle -/

/-- V1. -/
theorem test_step_undefined_word : got (step (fetching 0x5121)) (fun s => (s.reports, s.pc)) =
    some ([⟨.undefinedInstruction, 0x200, 0x5121⟩], 0x202) := by decide
/-- V5, V6. -/
theorem test_step_fetch_faults :
    faultOf (step { State.reset with pc := 0xFFF }) = some (.memoryOutOfBounds 0x1000) ∧
    faultOf (step { State.reset with pc := 0x1000 }) = some (.memoryOutOfBounds 0x1000) := by decide
/-- V7. -/
theorem test_step_last_word :
    got (step ({ State.reset with pc := 0xFFE }.withFetchWord 16 0x6A01)) (fun s => (s.getV 0xA, s.pc)) =
      some (1, 0x1000) := by decide
/-- V9. -/
theorem test_step_odd_pc :
    got (step ({ State.reset with pc := 0x201 }.withFetchWord 16 0x6007)) (fun s => (s.getV 0, s.pc)) =
      some (7, 0x203) := by decide
/-- V109. -/
theorem test_step_enters_wait : got (step (fetching 0xF40A)) (fun s => (s.mode, s.pc)) =
    some (.awaitKey 4, 0x202) := by decide
/-- V112. -/
theorem test_step_ends_wait :
    got (step { at202 with mode := .awaitKey 4, keys := Vector.set (.replicate 16 false) 15 true })
      (fun s => (s.getV 4, s.mode, s.pc)) = some (0x0F, .normal, 0x202) := by decide
/-- R256: the host's list comes first; R241: a tick in it. -/
theorem test_step_host_list :
    got (step { at202 with host := [.timerTick, .cpuStep], dt := 3 }) (fun s => (s.dt, s.pc, s.host)) =
      some (2, 0x202, [.cpuStep]) := by decide

/-! ### Control transfer -/

/-- V14 and V15. -/
theorem test_ret : got (exec .ret { at202 with stack := [0x206] }) (fun s => (s.pc, s.stack)) =
    some (0x206, []) := by decide
theorem test_ret_underflow : got (exec .ret { at202 with pc := 0x302 }) (fun s => (s.pc, s.reports)) =
    some (0x302, [⟨.stackUnderflow, 0x300, 0x00EE⟩]) := by decide
/-- V17. -/
theorem test_sys : got (exec (.sys 0xEEE) { at202 with pc := 0x402 }) (fun s => (s.pc, s.reports)) =
    some (0x402, [⟨.sysUnsupported, 0x400, 0x0EEE⟩]) := by decide
/-- V10. -/
theorem test_jp : got (exec (.jp 0xABC) at202) State.pc = some 0xABC := by decide
/-- V13 and V20. -/
theorem test_call : got (exec (.call 0x300) at202) (fun s => (s.stack, s.pc)) =
    some ([0x202], 0x300) := by decide
theorem test_call_overflow :
    faultOf (exec (.call 0x300) { at202 with stackDepth := some 1, stack := [0x208] }) =
      some (.stackOverflow 0x200) := by decide
/-- V19. -/
theorem test_jp_v0 : got (exec (.jpV0 0xFFF) (at202.setV 0 0xFF)) State.pc = some 0x10FE := by decide

/-! ### Skips -/

/-- V23 and V24. -/
theorem test_se_imm : got (exec (.seImm 3 0x12) (at202.setV 3 0x12)) State.pc = some 0x204 ∧
    got (exec (.seImm 3 0x12) (at202.setV 3 0x13)) State.pc = some 0x202 := by decide
/-- V25 and V26. -/
theorem test_sne_imm : got (exec (.sneImm 3 0x12) (at202.setV 3 0x12)) State.pc = some 0x202 ∧
    got (exec (.sneImm 3 0x12) at202) State.pc = some 0x204 := by decide
/-- V28 and V29. -/
theorem test_se_reg : got (exec (.seReg 1 2) ((at202.setV 1 7).setV 2 8)) State.pc = some 0x202 ∧
    got (exec (.seReg 1 1) at202) State.pc = some 0x204 := by decide
/-- V31 and V32. -/
theorem test_sne_reg : got (exec (.sneReg 1 2) ((at202.setV 1 1).setV 2 2)) State.pc = some 0x204 ∧
    got (exec (.sneReg 1 1) at202) State.pc = some 0x202 := by decide

/-! ### Register instructions: Vx and VF after, with VF = 0x55 before -/

/-- The vectors' start state: two registers and VF = 0x55. -/
def regs (a b : Byte) : State := ((at202.setV 0xF 0x55).setV 0 a).setV 1 b

/-- V0 and VF after an instruction. -/
def v0vf (i : Instr) (s : State) : Option (Byte × Byte) := got (exec i s) fun t => (t.getV 0, t.getV 0xF)

/-- V35. -/
theorem test_ld_imm : got (exec (.ldImm 0xA 0x9C) at202) (·.getV 0xA) = some 0x9C := by decide
/-- V36 and V38. -/
theorem test_add_imm : v0vf (.addImm 0 0x02) (regs 0xFF 0) = some (0x01, 0x55) ∧
    got (exec (.addImm 0xF 1) (at202.setV 0xF 0xFF)) (·.getV 0xF) = some 0 := by decide
/-- V39 to V42. -/
theorem test_ld_reg : v0vf (.ldReg 0 1) (regs 0 0x33) = some (0x33, 0x55) := by decide
theorem test_or : v0vf (.orReg 0 1) (regs 0x0F 0xF0) = some (0xFF, 0x55) := by decide
theorem test_and : v0vf (.andReg 0 1) (regs 0x3C 0x0F) = some (0x0C, 0x55) := by decide
theorem test_xor : v0vf (.xorReg 0 1) (regs 0xFF 0x0F) = some (0xF0, 0x55) := by decide
/-- V44, V45 and V49. -/
theorem test_add_reg : v0vf (.addReg 0 1) (regs 0xFF 0x01) = some (0x00, 1) ∧
    v0vf (.addReg 0 1) (regs 0x7F 0x01) = some (0x80, 0) := by decide
theorem test_add_reg_into_vf :
    got (exec (.addReg 0xF 1) ((at202.setV 0xF 0xFF).setV 1 1)) (·.getV 0xF) = some 1 := by decide
/-- V52, V53. -/
theorem test_sub : v0vf (.sub 0 1) (regs 0x03 0x05) = some (0xFE, 0) ∧
    v0vf (.sub 0 1) (regs 0x07 0x07) = some (0x00, 1) := by decide
/-- V56, V57. -/
theorem test_subn : v0vf (.subn 0 1) (regs 0x03 0x05) = some (0x02, 1) ∧
    v0vf (.subn 0 1) (regs 0x05 0x03) = some (0xFE, 0) := by decide
/-- V61, V62, V63. -/
theorem test_shr : v0vf (.shr 0 1) (regs 0xFF 0) = some (0x7F, 1) ∧
    v0vf (.shr 0 1) (regs 0x02 0xFF) = some (0x01, 0) := by decide
theorem test_shr_vf : got (exec (.shr 0xF 0) (at202.setV 0xF 0x03)) (·.getV 0xF) = some 0 := by decide
/-- V64, V67, V68. -/
theorem test_shl : v0vf (.shl 0 0) (regs 0x81 0) = some (0x02, 1) := by decide
theorem test_shl_vf : got (exec (.shl 0xF 0) (at202.setV 0xF 0x80)) (·.getV 0xF) = some 2 ∧
    got (exec (.shl 0xF 0) (at202.setV 0xF 0x7F)) (·.getV 0xF) = some 0 := by decide
/-- V70, for every draw: the mask 0 gives 0. -/
theorem test_rnd_mask_zero (n : Nat) :
    got (exec (.rnd 3 0) { at202 with draws := n }) (·.getV 3) = some 0 := by
  show some (Config.randomByte n &&& 0#8) = some 0#8
  rw [BitVec.and_zero]
/-- V71, for every draw: the mask 0xFF gives the draw. -/
theorem test_rnd_mask_full (n : Nat) :
    got (exec (.rnd 3 0xFF) { at202 with draws := n }) (·.getV 3) = some (Config.randomByte n) := by
  show some (Config.randomByte n &&& 255#8) = some (Config.randomByte n)
  rw [show (255#8 : Byte) = BitVec.allOnes 8 by decide, BitVec.and_allOnes]

/-! ### The address register and memory -/

/-- Bytes of memory after an instruction. -/
def bytes (a : Answer) (at_ : List Nat) : Option (List Byte) := got a fun t => at_.map t.mem.read

/-- V72. -/
theorem test_ld_i : got (exec (.ldI 0x123) at202) State.i = some 0x123 := by decide
/-- V74, V75. -/
theorem test_add_i : got (exec (.addIVx 0) { regs 1 0 with i := 0xFFF }) State.i = some 0x1000 ∧
    got (exec (.addIVx 0) { regs 1 0 with i := 0xFFFF }) State.i = some 0 := by decide
/-- V77, V79. -/
theorem test_ld_f : got (exec (.ldF 0) (regs 0x0F 0)) State.i = some 0x04B ∧
    got (exec (.ldF 0) (regs 0xFF 0)) State.i = some 0x4FB := by decide
/-- W6. -/
theorem test_bcd : bytes (exec (.bcd 0) { regs 156 0 with i := 0x400 }) [0x400, 0x401, 0x402, 0x403] =
    some [1, 5, 6, 0] := by decide
/-- V84. -/
theorem test_bcd_fault : faultOf (exec (.bcd 0) { regs 1 0 with i := 0xFFE }) =
    some (.memoryOutOfBounds 0x1000) := by decide
/-- R184's example, and the byte after. -/
theorem test_store_regs :
    bytes (exec (.storeRegs 1) { regs 0x12 0x34 with i := 0x400 }) [0x400, 0x401, 0x402] =
      some [0x12, 0x34, 0] := by decide
/-- V87. -/
theorem test_store_regs_fault : faultOf (exec (.storeRegs 0xF) { at202 with i := 0xFF8 }) =
    some (.memoryOutOfBounds 0x1000) := by decide
/-- V89, and V5 unchanged: the font of R41. -/
theorem test_load_regs : got (exec (.loadRegs 4) (at202.setV 5 0x77))
      (fun t => [t.getV 0, t.getV 1, t.getV 2, t.getV 3, t.getV 4, t.getV 5]) =
    some [0xF0, 0x90, 0x90, 0x90, 0xF0, 0x77] := by decide
/-- A write of the reset content removes the entry: the canonical form. -/
theorem test_memory_canonical :
    (Memory.write [] 0x300 7).write 0x300 0 = [] ∧ Memory.write [] 0 0xF0 = [] ∧
    (Memory.write (Memory.write [] 0x300 7) 0x200 5).wf = true ∧
    Memory.wf [(0x300, 7), (0x200, 5)] = false ∧ Memory.wf [(0x300, 0)] = false ∧
    Memory.wf [(0x1000, 1)] = false := by decide

/-! ### Display -/

/-- One sprite byte at 0x300. -/
def sprite (b : Byte) (x y : Byte) : State := { regs x y with i := 0x300, mem := [(0x300, b)] }

/-- Pixels and VF after an instruction. -/
def pixels (a : Answer) (at_ : List (Nat × Nat)) : Option (List Bool × Byte) :=
  got a fun t => (at_.map fun p => t.pixel p.1 p.2, t.getV 0xF)

/-- V95: the right edge wraps. -/
theorem test_drw_wraps : pixels (exec (.drw 0 1 1) (sprite 0xFF 60 0))
      [(59, 0), (60, 0), (63, 0), (0, 0), (3, 0), (4, 0)] =
    some ([false, true, true, true, true, false], 0) := by decide
/-- V93: a lit pixel goes off, with VF = 1. -/
theorem test_drw_collides :
    pixels (exec (.drw 0 1 1) ((sprite 0x80 0 0).xorPixel 0 0 true).1) [(0, 0), (1, 0)] =
      some ([false, false], 1) := by decide
/-- V99. -/
theorem test_drw_fault : faultOf (exec (.drw 0 1 2) { at202 with i := 0xFFF }) =
    some (.memoryOutOfBounds 0x1000) := by decide
/-- V90. -/
theorem test_cls : got (exec .cls (at202.xorPixel 3 4 true).1) (fun t => (t.pixel 3 4, t.changed)) =
    some (false, true) := by decide

/-! ### Timers, keys and host -/

/-- V101. -/
theorem test_ld_vx_dt : got (exec (.ldVxDt 3) { at202 with dt := 2 }) (·.getV 3) = some 2 := by decide
/-- V100, V102. -/
theorem test_ld_dt_vx : got (exec (.ldDtVx 0) (regs 5 0)) (fun t => (t.dt, (timerTick t).dt)) =
    some (5, 4) := by decide
/-- V103. -/
theorem test_ld_st_vx : got (exec (.ldStVx 1) (regs 0 1)) (fun t => (t.tone, (timerTick t).tone)) =
    some (true, false) := by decide
theorem test_tick_floor : (timerTick at202).dt = 0 ∧ (timerTick at202).st = 0 := by decide
/-- V104, V105, V107. -/
theorem test_skp : got (exec (.skp 2) (keyWrite 5 true (at202.setV 2 5))) State.pc = some 0x204 ∧
    got (exec (.skp 2) (at202.setV 2 5)) State.pc = some 0x202 := by decide
theorem test_skp_range : faultOf (exec (.skp 2) (at202.setV 2 0x10)) =
    some (.keyIndexOutOfRange 0x10) := by decide
/-- V106. -/
theorem test_sknp : got (exec (.sknp 2) (at202.setV 2 5)) State.pc = some 0x204 ∧
    got (exec (.sknp 2) (keyWrite 5 true (at202.setV 2 5))) State.pc = some 0x202 := by decide
/-- V108: the lowest key. -/
theorem test_ld_vx_k : got (exec (.ldVxK 4) (keyWrite 7 true (keyWrite 3 true at202)))
    (fun t => (t.getV 4, t.mode)) = some (3, .normal) := by decide
/-- R254. -/
theorem test_display_ack : got (transact .displayAck { at202 with changed := true }) State.changed =
    some false := by decide
/-- W7: a short image. -/
theorem test_load : [0x1FF, 0x200, 0x201, 0x202].map (Memory.load [] [0x12, 0x34]).read =
    [0, 0x12, 0x34, 0] := by decide
/-- R232, R234: the codes. -/
theorem test_codes : ReportKind.code .sysUnsupported = 0x03 ∧ Fault.code (.stackOverflow 0) = 0x12 := by
  decide

/-! ### Witnesses: a state and operands that meet a statement's hypotheses, at the ends of their ranges -/

/-- A state whose host asks for a CPU step and then a tick. -/
def asked (s : State) : State := { s with host := [.cpuStep, .timerTick] }

/-- A state with I and two registers. -/
def withI (i : Word) : State := { regs 1 0 with i := i }

/-- The keyboard with one key pressed. -/
def pressing (k : Nibble) : State := keyWrite k true at202

theorem test_hyp_DecodeOfEncodeIsTheInstruction :
    (Instr.sys 0x0E1).wf = true ∧ (Instr.drw 0xF 0xF 0xF).wf = true := by decide
theorem test_hyp_DecodeFollowsTheOpcodeTable :
    (opcodeRows.filter fun r => r.fits 0x00E0).length = 2 ∧
    (opcodeRows.filter fun r => r.fits 0x0EEE).length = 1 ∧
    (opcodeRows.filter fun r => r.fits 0x5121).length = 0 := by decide
theorem test_hyp_AssemblerReadsTheSyntaxBack :
    (Instr.sys 0xFFF).wf = true ∧ (Instr.jpV0 0).wf = true := by decide
theorem test_hyp_StepRunsTheDecodedInstruction :
    (fetching 0x6A9C).cpuStepNext [] ∧ (fetching 0x6A9C).fetches ∧
    decode (fetching 0x6A9C).wordAtPc = .ok (.ldImm 0xA 0x9C) ∧
    (asked (fetching 0x6A9C)).cpuStepNext [.timerTick] := by
  unfold State.cpuStepNext State.fetches; decide
/-- The last word that a fetch can read (V7). -/
theorem test_hyp_StepRunsTheDecodedInstruction_last :
    ({ State.reset with pc := 0xFFE } : State).fetches ∧
    decode ({ State.reset with pc := 0xFFE } : State).wordAtPc = .ok (.sys 0) := by
  unfold State.fetches; decide
theorem test_hyp_UndefinedWordIsReportedAndSkipped :
    (fetching 0xF1FF).cpuStepNext [] ∧ (fetching 0xF1FF).fetches ∧ (fetching 0xF1FF).wordAtPc = 0xF1FF ∧
    decode 0xF1FF = .error (.undefinedWord 0xF1FF) := by
  unfold State.cpuStepNext State.fetches; decide
theorem test_hyp_FetchOutsideMemoryFaults :
    let s (a : Word) : State := { State.reset with pc := a }
    (s 0x1000).fatal = none ∧ (s 0x1000).mode = .normal ∧ 4096 ≤ (s 0x1000).pc.toNat ∧
    4096 ≤ (s 0xFFFF).pc.toNat ∧ (s 0xFFF).pc.toNat = 0xFFF ∧ (s 0xFFF).fatal = none := by decide
theorem test_hyp_AwaitingCpuPollsTheKeyboard :
    (let s : State := { at202 with mode := .awaitKey 4 }
     s.fatal = none ∧ s.mode = .awaitKey 4 ∧ ∀ k, s.keyPressed k = false) ∧
    (let s : State := { pressing 0xF with mode := .awaitKey 0xF }
     s.fatal = none ∧ s.mode = .awaitKey 0xF ∧ s.lowestKey 0xF) := by
  unfold State.lowestKey; decide
/-- A faulting fetch, and the state that the session then may hold. -/
theorem test_hyp_FatalFaultEndsTheSession :
    let s : State := { State.reset with pc := 0x1000 }
    let t : State := { s with fatal := some (.memoryOutOfBounds 0x1000) }
    transact .cpuStep s = .fault (.memoryOutOfBounds 0x1000) ∧ SessionStep .cpuStep s t ∧
    SessionStep .timerTick t t :=
  ⟨rfl, .ends rfl rfl rfl rfl rfl, .goesOn rfl⟩
theorem test_hyp_ReportingStepDoesNothingElse :
    got (cpuStep (fetching 0x00EE)) State.reports = some [⟨.stackUnderflow, 0x200, 0x00EE⟩] ∧
    (fetching 0x00EE).reports = [] := by decide
theorem test_hyp_RetPopsOrReportsUnderflow :
    at202.pc = (0x200 : Word) + 2 ∧ at202.stack = [] ∧
    ({ at202 with stack := [0x206, 0x300] } : State).stack = 0x206 :: [0x300] := by decide
theorem test_hyp_SysReportsAndDoesNothing :
    (0x000 : Addr) ≠ 0x0E0 ∧ (0x000 : Addr) ≠ 0x0EE ∧ (0xFFF : Addr) ≠ 0x0E0 ∧ (0xFFF : Addr) ≠ 0x0EE ∧
    at202.pc = (0x200 : Word) + 2 := by decide
theorem test_hyp_CallPushesTheReturnAddress :
    let s (n : Nat) : State := { at202 with stackDepth := some 1, stack := List.replicate n 0x208 }
    at202.pc = (0x200 : Word) + 2 ∧ at202.stackDepth = none ∧
    (∀ d ∈ (s 0).stackDepth, (s 0).stack.length ≠ d) ∧
    (s 1).pc = (0x200 : Word) + 2 ∧ (s 1).stackDepth = some 1 ∧ (s 1).stack.length = 1 := by decide
theorem test_hyp_RetAfterCallReturns :
    ∃ t, exec (.call 0x300) at202 = .next t ∧ ({ t with pc := 0x302 } : State).stack = t.stack :=
  ⟨_, rfl, rfl⟩
/-- Each skip with its condition met and not met. -/
theorem test_hyp_RegisterSkipsCompare :
    (at202.setV 3 0xFF).getV 3 = 0xFF ∧ at202.getV 3 ≠ 0xFF ∧
    at202.getV 1 = at202.getV 2 ∧ (at202.setV 2 8).getV 1 ≠ (at202.setV 2 8).getV 2 := by decide
theorem test_hyp_AddRegisterSetsTheCarry :
    (0 : Nibble) ≠ 0xF ∧ ((regs 0xFF 1).getV 0).toNat + ((regs 0xFF 1).getV 1).toNat > 0xFF ∧
    ¬ ((regs 0xFE 1).getV 0).toNat + ((regs 0xFE 1).getV 1).toNat > 0xFF := by decide
theorem test_hyp_SubtractSetsNotBorrow :
    (0xE : Nibble) ≠ 0xF ∧ ((regs 7 7).getV 0).toNat ≥ ((regs 7 7).getV 1).toNat ∧
    ¬ ((regs 6 7).getV 0).toNat ≥ ((regs 6 7).getV 1).toNat := by decide
theorem test_hyp_ShiftsWriteTheFlagFirst :
    (0xE : Nibble) ≠ 0xF ∧ ((at202.setV 0xF 0x80).getV 0xF).toNat ≥ 128 ∧
    ¬ ((at202.setV 0xF 0x7F).getV 0xF).toNat ≥ 128 := by decide
theorem test_hyp_BcdStoresTheDigits :
    (withI 0xFFD).i.toNat + 3 ≤ 4096 ∧ 4096 < (withI 0xFFE).i.toNat + 3 ∧
    4096 < (withI 0xFFFF).i.toNat + 3 := by decide
theorem test_hyp_StoreRegistersWritesMemory :
    (withI 0xFFF).i.toNat + (0 : Nibble).toNat < 4096 ∧ (withI 0xFF0).i.toNat + (0xF : Nibble).toNat < 4096 ∧
    4096 ≤ (withI 0xFF1).i.toNat + (0xF : Nibble).toNat ∧ 4096 ≤ (withI 0x1000).i.toNat + (0 : Nibble).toNat := by
  decide
theorem test_hyp_LoadRegistersReadsMemory :
    (withI 0xFFF).i.toNat + (0 : Nibble).toNat < 4096 ∧ (withI 0xFF0).i.toNat + (0xF : Nibble).toNat < 4096 ∧
    4096 ≤ (withI 0xFF1).i.toNat + (0xF : Nibble).toNat ∧ (0xF : Nibble).toNat ≤ (0xF : Nibble).toNat ∧
    ¬ (0xF : Nibble).toNat ≤ (0xE : Nibble).toNat := by decide
theorem test_hyp_LoadAfterStoreRestoresTheRegisters :
    ∃ t, exec (.storeRegs 1) (withI 0x400) = .next t ∧ (t.setV 0 0x99).i = t.i ∧
      (t.setV 0 0x99).mem = t.mem := ⟨_, rfl, rfl, rfl⟩
theorem test_hyp_StoredWordIsFetchedNext :
    (∃ t, exec (.storeRegs 1) (withI 0x202) = .next t) ∧ 1 ≤ (1 : Nibble).toNat ∧
    (withI 0x202).i.toNat = (withI 0x202).pc.toNat := ⟨⟨_, rfl⟩, by decide, by decide⟩
theorem test_hyp_MemoryReadsWhatWasWritten :
    (0 : Nat) < 4096 ∧ 4095 < 4096 ∧ (4096 : Nat) ≤ 4096 ∧ (4094 : Nat) ≠ 4095 := by decide
theorem test_hyp_CanonicalMemoriesThatReadAlikeAreEqual :
    let m : Memory := [(0x200, 5), (0xFFF, 1)]
    m.wf = true ∧ ∀ a, m.read a = (Memory.write (Memory.write [] 0xFFF 1) 0x200 5).read a :=
  ⟨by decide, fun _ => rfl⟩
/-- The last sprite inside memory, the first outside, no rows at any I; a covered and an uncovered pixel. -/
theorem test_hyp_DrwXorsTheSprite :
    (0 : Nibble) = 0 ∧ (withI 0xFF1).i.toNat + (0xF : Nibble).toNat ≤ 4096 ∧
    (1 : Nibble) ≠ 0 ∧ 4096 < (withI 0x1000).i.toNat + (1 : Nibble).toNat ∧
    4096 < (withI 0xFF2).i.toNat + (0xF : Nibble).toNat ∧
    (∃ k < 1, ∃ j < 8, spriteBit ((sprite 0x80 63 31).mem.read (0x300 + k)) j = true ∧
      63 = (63 + j) % Config.width ∧ 31 = (31 + k) % Config.height) ∧
    (¬ ∃ k < 1, ∃ j < 8, spriteBit ((sprite 0x80 63 31).mem.read (0x300 + k)) j = true ∧
      0 = (63 + j) % Config.width ∧ 31 = (31 + k) % Config.height) := by decide
theorem test_hyp_DrawingTwiceRestoresTheDisplay :
    (0 : Nibble) ≠ 0xF ∧ (0xE : Nibble) ≠ 0xF ∧ (∃ t, exec (.drw 0 0xE 1) (sprite 0x80 0 0) = .next t) ∧
    ∀ cx cy, (sprite 0x80 0 0).pixel cx cy = false :=
  ⟨by decide, by decide, ⟨_, rfl⟩, fun cx cy => by
    simp [sprite, regs, at202, State.reset, State.pixel, State.setV, column, row]⟩
theorem test_hyp_KeySkipsReadTheKey :
    ((at202.setV 2 0x0F).getV 2).toNat = (0xF : Nibble).toNat ∧ (pressing 0xF).keyPressed 0xF = true ∧
    at202.keyPressed 0xF = false ∧ 16 ≤ ((at202.setV 2 0x10).getV 2).toNat ∧
    16 ≤ ((at202.setV 2 0xFF).getV 2).toNat := by decide
theorem test_hyp_WaitForKeyTakesTheLowestKeyOrWaits :
    (pressing 0xF).lowestKey 0xF ∧ (keyWrite 0 true (pressing 7)).lowestKey 0 ∧
    ∀ k, at202.keyPressed k = false := by unfold State.lowestKey; decide
theorem test_hyp_TimerTickDecrementsWithAFloor :
    at202.fatal = none ∧ ({ at202 with fatal := some (.stackOverflow 0x200) } : State).fatal ≠ none := by
  decide
theorem test_hyp_HostWritesKeysAndReadsTheDisplay : (0 : Nibble) ≠ 0xF := by decide

/-- Parameters of a session: another font, a bounded stack, `changed` set, one tick. -/
def params : BootParams := ⟨Vector.replicate 80 0x81, some 16, true, [.timerTick]⟩

theorem test_hyp_ResetClearsTheCpu :
    (State.reset = State.reset ∨ ∃ p image, State.reset = State.start p image) ∧
    (State.start params [0x12] = State.reset ∨ ∃ p image, State.start params [0x12] = State.start p image) :=
  ⟨.inl rfl, .inr ⟨_, _, rfl⟩⟩
theorem test_hyp_ResetClearsTheDevices :
    ∃ p image, State.start params [] = State.start p image := ⟨_, _, rfl⟩
theorem test_hyp_BootLoadsTheFontAndTheImage :
    (80 : Nat) ≤ 80 ∧ 80 < 0x200 ∧ 80 ≤ 0x1FF ∧ 0x1FF < 0x200 ∧ 3583 < 3584 := by decide

/-- A state that meets the invariant, with a full bounded stack and PC at its bound. -/
def atBounds : State := { State.reset with pc := 0x10FE, stackDepth := some 1, stack := [0x1000] }

theorem test_hyp_EveryStepKeepsTheInvariant :
    (fetching 0x6A9C).Inv ∧ ∃ t, step (fetching 0x6A9C) = .next t := by
  have e : (fetching 0x6A9C).stackDepth = none := by decide
  refine ⟨⟨by decide, by decide, ?_, ?_, ?_⟩, _, rfl⟩
  · exact List.forall_iff_forall_mem.mp (by decide)
  · rw [e]; trivial
  · intro d h; rw [e] at h; cases h
/-- A state of the invariant with PC, a return address and a bounded stack at their bounds. -/
theorem test_hyp_EveryStepKeepsTheInvariant_bounds : atBounds.Inv := by
  have e : atBounds.stackDepth = some 1 := rfl
  refine ⟨by decide, by decide, List.forall_iff_forall_mem.mp (by decide), ?_, ?_⟩
  · rw [e]; exact Nat.one_pos
  · intro d h; rw [e] at h; cases h; decide
theorem test_hyp_ResetMeetsTheInvariant : legalDepth params.stackDepth ∧ legalDepth (some 1) ∧ legalDepth none :=
  ⟨show 0 < 16 by decide, Nat.one_pos, trivial⟩
theorem test_hyp_ReachableStatesMeetTheInvariant :
    Reachable (State.start params [0x6A, 0x9C]) ∧ ∃ t, Reachable t ∧ t.host = [] ∧ t.dt = 0 :=
  have h : Reachable (State.start params [0x6A, 0x9C]) :=
    .start _ _ (show 0 < 16 by decide)
  ⟨h, _, .step h rfl, rfl, rfl⟩
theorem test_hyp_StepsStopOnlyForTheSpecsReasons :
    faultOf (step { State.reset with pc := 0x1000 }) = some (.memoryOutOfBounds 0x1000) ∧
    faultOf (step ((fetching 0xE29E).setV 2 0x10)) = some (.keyIndexOutOfRange 0x10) ∧
    faultOf (step { fetching 0x2300 with stackDepth := some 1, stack := [0x208] }) =
      some (.stackOverflow 0x200) := by decide
/-- A transaction that changes memory; and one that sets and one that clears `changed`. -/
theorem test_hyp_OnlyStoresWriteMemory :
    got (transact .cpuStep { (fetching 0xF033).setV 0 156 with i := 0x400 })
      (fun t => decide (t.mem ≠ (fetching 0xF033).mem)) = some true := by decide
theorem test_hyp_OnlyClsAndDrwWriteTheDisplay :
    (fetching 0x00E0).changed = false ∧
    got (transact .cpuStep (fetching 0x00E0)) State.changed = some true ∧
    got (transact .displayAck { at202 with changed := true }) State.changed = some false := by decide
theorem test_hyp_OnlyCallAndRetTouchTheStack :
    got (transact .cpuStep (fetching 0x2300)) State.stack = some [0x202] ∧
    got (transact .cpuStep { fetching 0x00EE with stack := [0x208] }) State.stack = some [] := by decide
theorem test_hyp_VRegistersHaveTheListedWriters :
    got (transact .cpuStep (fetching 0x6A9C)) (·.getV 0xA) = some 0x9C ∧
    (fetching 0x6A9C).getV 0xA = 0 ∧
    got (transact .cpuStep { pressing 5 with mode := .awaitKey 4 }) (·.getV 4) = some 5 := by decide
theorem test_hyp_IHasThreeWriters :
    got (transact .cpuStep (fetching 0xA300)) State.i = some 0x300 ∧ (fetching 0xA300).i = 0 := by decide
theorem test_hyp_PcHasTheListedWriters :
    (fetching 0x6A9C).runs .cpuStep (.ldImm 0xA 0x9C) ∧ (Instr.ldImm 0xA 0x9C).writesPc = false ∧
    (∃ t, transact .cpuStep (fetching 0x6A9C) = .next t) ∧
    (fetching 0x3A00).runs .cpuStep (.seImm 0xA 0) ∧ (∃ t, transact .cpuStep (fetching 0x3A00) = .next t) ∧
    Transaction.timerTick ≠ .cpuStep := by
  unfold State.runs State.fetches
  exact ⟨by decide, rfl, ⟨_, rfl⟩, by decide, ⟨_, rfl⟩, by decide⟩
theorem test_hyp_TimersHaveTheListedWriters :
    got (transact .timerTick { at202 with dt := 1, st := 255 }) (fun t => (t.dt, t.st)) = some (0, 254) ∧
    got (transact .cpuStep ((fetching 0xF015).setV 0 5)) State.dt = some 5 := by decide
theorem test_hyp_OnlyTheHostWritesTheKeys :
    got (transact (.keyWrite 0xF true) at202) (fun t => (t.keyPressed 0xF, at202.keyPressed 0xF)) =
      some (true, false) := by decide
theorem test_hyp_OnlyTheKeyInstructionWaits :
    (fetching 0xF40A).mode = .normal ∧
    got (transact .cpuStep (fetching 0xF40A)) State.mode = some (.awaitKey 4) ∧
    got (transact .cpuStep { pressing 5 with mode := .awaitKey 4 }) State.mode = some .normal := by decide
theorem test_hyp_OutputsAreInvisibleToTheCpu :
    (fetching 0x6A9C).hide = (asked { fetching 0x6A9C with st := 9, changed := true }).hide ∧
    (fetching 0x6A9C) ≠ asked { fetching 0x6A9C with st := 9, changed := true } := by decide
theorem test_hyp_OnlyKeyInstructionsReadTheKeys :
    (Instr.cls).readsKeys = false ∧ (Instr.ldVxDt 3).readsKeys = false := by decide

end Sys2Proof.Tests
end

section
/-! PROOFS. What reset leaves in the CPU's own fields (10_state.md section 7), and that a session's start takes
them over from reset. -/

namespace Sys2Proof.Machine

/-- R37: every name of the register file reads one and the same filled vector. -/
@[simp] theorem reset_getV (j : Nibble) : State.reset.getV j = 0 := by
  simp [State.getV, State.reset]

/-- R261: a load changes memory, the parameters and the host's side, and no V register. -/
@[simp] theorem start_getV (p : BootParams) (image : List Byte) (j : Nibble) :
    (State.start p image).getV j = State.reset.getV j := rfl

/-- Settles O43, by the two kinds of starting state: bare reset, and the start of a session, whose CPU is
that of reset (R37, R38, R39). -/
theorem resetClearsTheCpu : Obligations.ResetClearsTheCpu := by
  rintro s (rfl | ⟨p, image, rfl⟩)
  case inl => exact ⟨reset_getV, rfl, rfl, rfl, rfl, rfl, rfl⟩
  case inr =>
    have hv (j : Nibble) : (State.start p image).getV j = 0 :=
      (start_getV p image j).trans (reset_getV j)
    exact ⟨hv, rfl, rfl, rfl, rfl, rfl, rfl⟩

end Sys2Proof.Machine
end

section
/-! PROOFS. Single accesses to memory (20_memory.md R51, R52): what a `MemRead` answers after a `MemWrite`, to
the same address and to another. -/

namespace Sys2Proof.Machine

/-- R51: a `MemRead` looks at no more of the state than the byte at its own address. -/
theorem memRead_congr {s t : State} {a : Nat} (h : t.mem.read a = s.mem.read a) :
    t.memRead a = s.memRead a := by
  simp [State.memRead, h]

/-- R52: all that a `MemWrite` that completes can have done. -/
theorem memWrite_cases {s t : State} {a : Nat} {b : Byte} (h : s.memWrite a b = .ok t) :
    a < Config.memSize ∧ t = { s with mem := s.mem.write a b } := by
  by_cases ha : a < Config.memSize
  · rw [memWrite_ok s b ha] at h
    exact ⟨ha, (Except.ok.inj h).symm⟩
  · rw [memWrite_error s b (Nat.not_lt.mp ha)] at h
    cases h

theorem memRead_memWrite_same {s t : State} {a : Nat} {b : Byte} (h : s.memWrite a b = .ok t) :
    t.memRead a = .ok b := by
  obtain ⟨ha, rfl⟩ := memWrite_cases h
  rw [memRead_ok _ ha, read_write_same]

theorem memRead_memWrite_of_ne {s t : State} {a c : Nat} {b : Byte} (h : s.memWrite a b = .ok t)
    (hc : c ≠ a) : t.memRead c = s.memRead c := by
  obtain ⟨-, rfl⟩ := memWrite_cases h
  exact memRead_congr (read_write_of_ne s.mem b hc)

theorem memWrite_frame {s t : State} {a : Nat} {b : Byte} (h : s.memWrite a b = .ok t) :
    ChangesOnly [] [.mem] s t := by
  obtain ⟨-, rfl⟩ := memWrite_cases h
  exact mem_frame s _

/-- Settles O33, by the two sides of the memory size: inside it the answers are those of the single accesses
and the write's frame is memory alone, outside it both accesses fault (R51, R52). -/
theorem memoryReadsWhatWasWritten : Obligations.MemoryReadsWhatWasWritten := by
  constructor
  case left =>
    intro s a ha
    refine ⟨memRead_ok s ha, fun b => ?_⟩
    have hw := memWrite_ok s b ha
    exact ⟨_, hw, memRead_memWrite_same hw, fun _ hc => memRead_memWrite_of_ne hw hc, memWrite_frame hw⟩
  case right =>
    intro s a ha
    exact ⟨memRead_error s ha, fun b => memWrite_error s b ha⟩

end Sys2Proof.Machine
end

section
/-! PROOFS. The decoder and the opcode map agree (30_encoding.md R84, R85): the rows are disjoint but for
CLS and RET, a decoded instruction encodes back to its word, and a rejected word fits no row. -/

namespace Sys2Proof

/-! ### The rows overlap on two words only -/

/-- The conflict test of two rows: a word that fits both keeps the same bits under both masks. -/
theorem pattern_and_mask_of_fits {r r' : OpcodeRow} {w : Word} (h : r.fits w = true)
    (h' : r'.fits w = true) : r.pattern &&& r'.mask = r'.pattern &&& r.mask := by
  rw [← beq_iff_eq.mp h, ← beq_iff_eq.mp h', BitVec.and_assoc, BitVec.and_assoc,
    BitVec.and_comm r.mask]

/-- Two rows of the map whose patterns do not conflict are the same row, or one is CLS or RET (R84). -/
theorem rows_disjoint : ∀ r ∈ opcodeRows, ∀ r' ∈ opcodeRows,
    r.pattern &&& r'.mask = r'.pattern &&& r.mask →
      r = r' ∨ r.mask = 0xFFFF ∨ r'.mask = 0xFFFF := by
  decide

theorem pattern_of_full_mask : ∀ r ∈ opcodeRows, r.mask = 0xFFFF →
    r.pattern = 0x00E0 ∨ r.pattern = 0x00EE := by
  decide

/-- A row of format NONE selects CLS or RET, word by word. -/
theorem word_of_fits_full_mask {r : OpcodeRow} {w : Word} (hr : r ∈ opcodeRows)
    (hm : r.mask = 0xFFFF) (h : r.fits w = true) : w = 0x00E0 ∨ w = 0x00EE := by
  have hw : w = r.pattern := by
    rw [← beq_iff_eq.mp h, hm, and_FFFF]
  exact hw ▸ pattern_of_full_mask r hr hm

theorem row_unique {r r' : OpcodeRow} {w : Word} (hr : r ∈ opcodeRows) (hr' : r' ∈ opcodeRows)
    (h : r.fits w = true) (h' : r'.fits w = true) : r = r' ∨ w = 0x00E0 ∨ w = 0x00EE := by
  obtain he | hm | hm := rows_disjoint r hr r' hr' (pattern_and_mask_of_fits h h')
  · exact .inl he
  · exact .inr (word_of_fits_full_mask hr hm h)
  · exact .inr (word_of_fits_full_mask hr' hm h')

/-- Away from the two overlaps, any row that fits is the first that fits. -/
theorem tableName_of_fits {r : OpcodeRow} {w : Word} (hcls : w ≠ 0x00E0) (hret : w ≠ 0x00EE)
    (hr : r ∈ opcodeRows) (h : r.fits w = true) : tableName w = some r.name := by
  obtain ⟨r', hfind⟩ := Option.isSome_iff_exists.mp
    (List.find?_isSome (p := (·.fits w)).mpr ⟨r, hr, h⟩)
  have hfits' : r'.fits w = true := List.find?_some (p := (OpcodeRow.fits · w)) hfind
  have he : r' = r := (row_unique (List.mem_of_find?_eq_some hfind) hr hfits' h).resolve_right
    (not_or.mpr ⟨hcls, hret⟩)
  rw [tableName, hfind, he, Option.map_some]

/-! ### A word with an unlisted function code fits no row -/

theorem nibble0_and (w m : Word) : nibble0 (w &&& m) = nibble0 w &&& nibble0 m :=
  BitVec.extractLsb'_and

theorem fieldN_and (w m : Word) : fieldN (w &&& m) = fieldN w &&& fieldN m :=
  BitVec.extractLsb'_and

theorem fieldKk_and (w m : Word) : fieldKk (w &&& m) = fieldKk w &&& fieldKk m :=
  BitVec.extractLsb'_and

/-- A field that a row's mask keeps whole is the pattern's, in every word that fits the row. -/
theorem field_of_fits {k : Nat} {field : Word → BitVec k}
    (hand : ∀ w m, field (w &&& m) = field w &&& field m) {r : OpcodeRow} {w : Word}
    (hmask : field r.mask = BitVec.allOnes k) (h : r.fits w = true) : field r.pattern = field w := by
  rw [← beq_iff_eq.mp h, hand, hmask, BitVec.and_allOnes]

/-- Every row fixes the first nibble (R83). -/
theorem nibble0_mask : ∀ r ∈ opcodeRows, nibble0 r.mask = BitVec.allOnes 4 := by
  decide

/-- Where the rows of one first nibble all fix a further field, the function code, a word whose code none
of them lists fits no row (R86). -/
theorem tableName_none_of_code {k : Nat} {field : Word → BitVec k}
    (hand : ∀ w m, field (w &&& m) = field w &&& field m) {op : Nibble} {codes : List (BitVec k)}
    (hrows : ∀ r ∈ opcodeRows, nibble0 r.pattern = op →
      field r.mask = BitVec.allOnes k ∧ field r.pattern ∈ codes)
    {w : Word} (hop : nibble0 w = op) (hcode : field w ∉ codes) : tableName w = none := by
  have hnone : ∀ r ∈ opcodeRows, ¬ r.fits w = true := by
    intro r hr h
    have hop' : nibble0 r.pattern = op := (field_of_fits nibble0_and (nibble0_mask r hr) h).trans hop
    obtain ⟨hmask, hmem⟩ := hrows r hr hop'
    exact hcode (field_of_fits hand hmask h ▸ hmem)
  rw [tableName, List.find?_eq_none.mpr hnone, Option.map_none]

/-! ### What the decoder can answer -/

/-- A word is rebuilt from its fields, with the fixed ones named by their values. -/
theorem wordAddr_of_op {w : Word} {op : Nibble} (hop : nibble0 w = op) :
    wordAddr op (fieldNnn w) = w := hop ▸ wordAddr_fields w

theorem wordXKk_of_op {w : Word} {op : Nibble} (hop : nibble0 w = op) :
    wordXKk op (fieldX w) (fieldKk w) = w := hop ▸ wordXKk_fields w

theorem wordXKk_of_code {w : Word} {op : Nibble} {fn : Byte} (hop : nibble0 w = op)
    (hfn : fieldKk w = fn) : wordXKk op (fieldX w) fn = w := hfn ▸ wordXKk_of_op hop

theorem wordXYN_of_op {w : Word} {op : Nibble} (hop : nibble0 w = op) :
    wordXYN op (fieldX w) (fieldY w) (fieldN w) = w := hop ▸ wordXYN_fields w

theorem wordXYN_of_code {w : Word} {op fn : Nibble} (hop : nibble0 w = op)
    (hfn : fieldN w = fn) : wordXYN op (fieldX w) (fieldY w) fn = w := hfn ▸ wordXYN_of_op hop

/-- A right answer of the decoder for `w`: an instruction of the map whose word is `w`, or the rejection of
a word that fits no row. -/
def RightAnswer (w : Word) : Except DecodeError Instr → Prop
  | .ok i => i.wf = true ∧ encode i = w
  | .error e => e = .undefinedWord w ∧ tableName w = none

theorem decodeSystem_right {w : Word} (hop : nibble0 w = 0x0) :
    RightAnswer w (.ok (decodeSystem w)) := by
  have hw := wordAddr_of_op hop
  unfold decodeSystem
  split_ifs with hcls hret
  · exact ⟨rfl, hcls.symm⟩
  · exact ⟨rfl, hret.symm⟩
  · have hE0 : fieldNnn w ≠ 0x0E0#12 := fun h => hcls (by rw [← hw, h]; rfl)
    have hEE : fieldNnn w ≠ 0x0EE#12 := fun h => hret (by rw [← hw, h]; rfl)
    exact ⟨by simp [Instr.wf, hE0, hEE], hw⟩

theorem decodeAlu_right {w : Word} (hop : nibble0 w = 0x8) : RightAnswer w (decodeAlu w) := by
  simp only [decodeAlu]
  split_ifs
  case neg =>
    refine ⟨rfl, tableName_none_of_code fieldN_and
      (codes := [0x0, 0x1, 0x2, 0x3, 0x4, 0x5, 0x6, 0x7, 0xE]) (by decide) hop ?_⟩
    simp [*]
  all_goals exact ⟨rfl, wordXYN_of_code hop ‹_›⟩

theorem decodeKeys_right {w : Word} (hop : nibble0 w = 0xE) : RightAnswer w (decodeKeys w) := by
  simp only [decodeKeys]
  split_ifs
  case neg =>
    refine ⟨rfl, tableName_none_of_code fieldKk_and (codes := [0x9E, 0xA1]) (by decide) hop ?_⟩
    simp [*]
  all_goals exact ⟨rfl, wordXKk_of_code hop ‹_›⟩

theorem decodeMisc_right {w : Word} (hop : nibble0 w = 0xF) : RightAnswer w (decodeMisc w) := by
  simp only [decodeMisc]
  split_ifs
  case neg =>
    refine ⟨rfl, tableName_none_of_code fieldKk_and
      (codes := [0x07, 0x0A, 0x15, 0x18, 0x1E, 0x29, 0x33, 0x55, 0x65]) (by decide) hop ?_⟩
    simp [*]
  all_goals exact ⟨rfl, wordXKk_of_code hop ‹_›⟩

/-- Each branch of the decoder is taken under its own test. -/
theorem RightAnswer.ite {w : Word} {c : Prop} [Decidable c] {a b : Except DecodeError Instr}
    (ha : c → RightAnswer w a) (hb : ¬ c → RightAnswer w b) : RightAnswer w (if c then a else b) :=
  iteInduction ha hb

theorem eq_F_of_not_mem : ∀ op : Nibble,
    op ∉ [0x0, 0x1, 0x2, 0x3, 0x4, 0x5, 0x6, 0x7, 0x8, 0x9, 0xA, 0xB, 0xC, 0xD, 0xE] → op = 0xF := by
  decide

/-- The formats 5xy0 and 9xy0: the branch on the last nibble. -/
theorem ite_fieldN_zero_right {w : Word} {op : Nibble} {i : Instr}
    (hrows : ∀ r ∈ opcodeRows, nibble0 r.pattern = op →
      fieldN r.mask = BitVec.allOnes 4 ∧ fieldN r.pattern ∈ [(0x0 : Nibble)])
    (hop : nibble0 w = op) (hwf : i.wf = true)
    (hi : encode i = wordXYN op (fieldX w) (fieldY w) 0x0) :
    RightAnswer w (if fieldN w = 0x0#4 then .ok i else .error (.undefinedWord w)) :=
  .ite (fun hn => ⟨hwf, hi.trans (wordXYN_of_code hop hn)⟩)
    fun hn => ⟨rfl, tableName_none_of_code fieldN_and hrows hop (by simpa using hn)⟩

/-- The decoder's branches, in its own order: one per first nibble (R84). -/
theorem decode_right (w : Word) : RightAnswer w (decode w) := by
  unfold decode
  refine .ite (fun h => decodeSystem_right h) fun h0 => ?_
  refine .ite (fun h => ⟨rfl, wordAddr_of_op h⟩) fun h1 => ?_
  refine .ite (fun h => ⟨rfl, wordAddr_of_op h⟩) fun h2 => ?_
  refine .ite (fun h => ⟨rfl, wordXKk_of_op h⟩) fun h3 => ?_
  refine .ite (fun h => ⟨rfl, wordXKk_of_op h⟩) fun h4 => ?_
  refine .ite (fun h => ite_fieldN_zero_right (by decide) h rfl rfl) fun h5 => ?_
  refine .ite (fun h => ⟨rfl, wordXKk_of_op h⟩) fun h6 => ?_
  refine .ite (fun h => ⟨rfl, wordXKk_of_op h⟩) fun h7 => ?_
  refine .ite (fun h => decodeAlu_right h) fun h8 => ?_
  refine .ite (fun h => ite_fieldN_zero_right (by decide) h rfl rfl) fun h9 => ?_
  refine .ite (fun h => ⟨rfl, wordAddr_of_op h⟩) fun hA => ?_
  refine .ite (fun h => ⟨rfl, wordAddr_of_op h⟩) fun hB => ?_
  refine .ite (fun h => ⟨rfl, wordXKk_of_op h⟩) fun hC => ?_
  refine .ite (fun h => ⟨rfl, wordXYN_of_op h⟩) fun hD => ?_
  refine .ite (fun h => decodeKeys_right h) fun hE => ?_
  exact decodeMisc_right (eq_F_of_not_mem _ (by simp [*]))

/-! ### The statement -/

/-- The family FitsItsRow, for every instruction. -/
theorem encode_fits_own_row : ∀ i : Instr, Laws.FitsItsRow.Statement i
  | .cls => Laws.FitsItsRow.cls
  | .ret => Laws.FitsItsRow.ret
  | .sys nnn => Laws.FitsItsRow.sys nnn
  | .jp nnn => Laws.FitsItsRow.jp nnn
  | .call nnn => Laws.FitsItsRow.call nnn
  | .seImm x kk => Laws.FitsItsRow.seImm x kk
  | .sneImm x kk => Laws.FitsItsRow.sneImm x kk
  | .seReg x y => Laws.FitsItsRow.seReg x y
  | .ldImm x kk => Laws.FitsItsRow.ldImm x kk
  | .addImm x kk => Laws.FitsItsRow.addImm x kk
  | .ldReg x y => Laws.FitsItsRow.ldReg x y
  | .orReg x y => Laws.FitsItsRow.orReg x y
  | .andReg x y => Laws.FitsItsRow.andReg x y
  | .xorReg x y => Laws.FitsItsRow.xorReg x y
  | .addReg x y => Laws.FitsItsRow.addReg x y
  | .sub x y => Laws.FitsItsRow.sub x y
  | .shr x y => Laws.FitsItsRow.shr x y
  | .subn x y => Laws.FitsItsRow.subn x y
  | .shl x y => Laws.FitsItsRow.shl x y
  | .sneReg x y => Laws.FitsItsRow.sneReg x y
  | .ldI nnn => Laws.FitsItsRow.ldI nnn
  | .jpV0 nnn => Laws.FitsItsRow.jpV0 nnn
  | .rnd x kk => Laws.FitsItsRow.rnd x kk
  | .drw x y n => Laws.FitsItsRow.drw x y n
  | .skp x => Laws.FitsItsRow.skp x
  | .sknp x => Laws.FitsItsRow.sknp x
  | .ldVxDt x => Laws.FitsItsRow.ldVxDt x
  | .ldVxK x => Laws.FitsItsRow.ldVxK x
  | .ldDtVx x => Laws.FitsItsRow.ldDtVx x
  | .ldStVx x => Laws.FitsItsRow.ldStVx x
  | .addIVx x => Laws.FitsItsRow.addIVx x
  | .ldF x => Laws.FitsItsRow.ldF x
  | .bcd x => Laws.FitsItsRow.bcd x
  | .storeRegs x => Laws.FitsItsRow.storeRegs x
  | .loadRegs x => Laws.FitsItsRow.loadRegs x

/-- A decoded instruction bears the name of the first row that its word fits. For the two words that SYS
overlaps, that is the priority of CLS and RET (R84). -/
theorem tableName_of_decode {w : Word} {i : Instr} (hd : decode w = .ok i) :
    tableName w = some i.name := by
  by_cases hcls : w = 0x00E0
  case pos =>
    subst hcls
    obtain rfl : Instr.cls = i := Except.ok.inj hd
    decide
  by_cases hret : w = 0x00EE
  case pos =>
    subst hret
    obtain rfl : Instr.ret = i := Except.ok.inj hd
    decide
  obtain ⟨hwf, rfl⟩ : RightAnswer w (.ok i) := hd ▸ decode_right w
  obtain ⟨r, hr, hname, hfits⟩ := encode_fits_own_row i hwf
  exact hname ▸ tableName_of_fits hcls hret hr hfits

/-- Settles O2: every answer of the decoder is right, a decoded instruction bears the name of its word's first
row, and two rows that fit one word cannot conflict (R84, R85). -/
theorem decodeFollowsTheOpcodeTable : Obligations.DecodeFollowsTheOpcodeTable := by
  refine ⟨fun w => ?_, fun w r hr r' hr' h h' => row_unique hr hr' h h'⟩
  have hright := decode_right w
  cases hd : decode w with
  | ok i =>
    obtain ⟨hwf, hi⟩ := hd ▸ hright
    exact .inl ⟨i, rfl, hwf, tableName_of_decode hd, hi⟩
  | error e =>
    obtain ⟨rfl, hnone⟩ := hd ▸ hright
    exact .inr ⟨rfl, hnone⟩

end Sys2Proof
end

section
/-! PROOFS. The step of a session whose next transaction is a `cpu_step` (40_cycle.md R100, R256), and the
undefined word in it (R105). -/

namespace Sys2Proof.Machine

/-- An empty host list and a leading `cpu_step` lead to one and the same transaction (R256, log 4). -/
theorem step_of_cpuStepNext {s : State} {rest : List Transaction} (h : s.cpuStepNext rest) :
    step s = cpuStep { s with host := rest } := by
  rw [step_eq]
  obtain ⟨hnil, rfl⟩ | hcons := h
  case inl =>
    have hs : { s with host := [] } = s := by rw [← hnil]
    rw [hnil, hs]
  case inr => rw [hcons]; rfl

theorem execWord_undefined {w : Word} {e : DecodeError} (h : decode w = .error e) (s : State) :
    execWord w s = .next (s.report .undefinedInstruction w) := by
  rw [execWord, h]
  rfl

theorem cpuStep_undefined {s : State} {e : DecodeError} (hs : s.fetches)
    (h : decode s.wordAtPc = .error e) :
    cpuStep s = .next ((s.setPc (s.pc + 2)).report .undefinedInstruction s.wordAtPc) :=
  (cpuStep_fetches hs).trans (execWord_undefined h _)

/-- After the fetch, the address of the instruction is where PC stood (R101, R231). -/
theorem setPc_add_two_instrAddr (s : State) (a : Word) : (s.setPc (a + 2)).instrAddr = a :=
  BitVec.add_sub_cancel a 2

/-- A report after the fetch names the address that the word was fetched from (R105). -/
theorem fetched_report_reports (s : State) (a : Word) (k : ReportKind) (w : Word) :
    ((s.setPc (a + 2)).report k w).reports = s.reports ++ [⟨k, a, w⟩] := by
  rw [report_reports, setPc_reports, setPc_add_two_instrAddr]

/-- A report after the fetch: PC and the reports are all that the two writes touch (R105). -/
theorem setPc_report_frame (s : State) (a : Word) (k : ReportKind) (w : Word) :
    ChangesOnly [] [.pc, .reports] s ((s.setPc a).report k w) :=
  ((setPc_frame s a).mono (by simp) (by simp)).trans
    ((report_frame _ k w).mono (by simp) (by simp))

/-- Settles O7: the step is a `cpu_step` that fetches, so it ends in the report of the undefined word, made
in the state whose PC has moved past the word (R100, R105). -/
theorem undefinedWordIsReportedAndSkipped : Obligations.UndefinedWordIsReportedAndSkipped := by
  rintro s rest w hnext hfetch rfl hundef
  have hstep := (step_of_cpuStepNext hnext).trans
    (cpuStep_undefined (s := { s with host := rest }) hfetch hundef)
  exact ⟨_, hstep, fetched_report_reports _ _ _ _, rfl, setPc_report_frame _ _ _ _⟩

end Sys2Proof.Machine
end

section
/-! PROOFS. RET, SYS and JP (41_flow.md R120 to R122): which words they are, where each leaves PC, and what a
report made after the fetch names. -/

namespace Sys2Proof

/-- R84: a word of first nibble 0 is SYS unless it is CLS or RET. -/
theorem decode_wordAddr_zero {nnn : Addr} (hcls : nnn ≠ 0x0E0) (hret : nnn ≠ 0x0EE) :
    decode (wordAddr 0x0#4 nnn) = .ok (.sys nnn) := by
  have hcls' : wordAddr 0x0#4 nnn ≠ 0x00E0#16 := fun h => hcls (wordAddr_inj (op' := 0x0#4).mp h).2
  have hret' : wordAddr 0x0#4 nnn ≠ 0x00EE#16 := fun h => hret (wordAddr_inj (op' := 0x0#4).mp h).2
  simp [decode, decodeSystem, hcls', hret']

theorem decode_wordAddr_one (nnn : Addr) : decode (wordAddr 0x1#4 nnn) = .ok (.jp nnn) := by
  simp [decode]

end Sys2Proof

namespace Sys2Proof.Machine

/-- R82: an address keeps its number where it meets PC or I. -/
@[simp] theorem addrOperand_toNat (nnn : Addr) : (addrOperand nnn).toNat = nnn.toNat :=
  BitVec.toNat_setWidth_of_le (by decide)

/-- R101: after the fetch the instruction stands two bytes below PC. -/
theorem instrAddr_of_pc {s : State} {a : Word} (hpc : s.pc = a + 2) : s.instrAddr = a := by
  rw [State.instrAddr, hpc, BitVec.add_sub_cancel]

/-- R231: a report names the address of the instruction that makes it. -/
theorem report_reports_of_pc {s : State} {a : Word} (hpc : s.pc = a + 2) (k : ReportKind) (w : Word) :
    (s.report k w).reports = s.reports ++ [⟨k, a, w⟩] := by
  rw [report_reports, instrAddr_of_pc hpc]

theorem exec_ret_of_nil {s : State} (h : s.stack = []) :
    exec .ret s = .next (s.report .stackUnderflow (encode .ret)) := by
  simp only [exec, execRet, h]

theorem exec_ret_of_cons {s : State} {b : Word} {rest : List Word} (h : s.stack = b :: rest) :
    exec .ret s = .next { s with stack := rest, pc := b } := by
  simp only [exec, execRet, h]

/-- R120: a pop into PC writes two parts of the state, and every other one is the same by definition. -/
theorem pop_frame (s : State) (b : Word) (rest : List Word) :
    ChangesOnly [] [.pc, .stack] s { s with stack := rest, pc := b } := by
  constructor
  case pc => simp
  case stack => simp
  all_goals intros; rfl

/-- Settles O12, by the two shapes of the stack: a pop writes PC and the stack, an underflow adds a report
and nothing else (R120). -/
theorem retPopsOrReportsUnderflow : Obligations.RetPopsOrReportsUnderflow := by
  refine ⟨rfl, fun s a hpc => ⟨fun b rest hstack => ?_, fun hstack => ?_⟩⟩
  · exact ⟨_, exec_ret_of_cons hstack, rfl, rfl, pop_frame s b rest⟩
  · exact ⟨_, exec_ret_of_nil hstack, report_reports_of_pc hpc _ _, report_frame s _ _⟩

/-- Settles O13: away from the words of CLS and RET the word is SYS, whose whole effect is one report
(R84, R121). -/
theorem sysReportsAndDoesNothing : Obligations.SysReportsAndDoesNothing := by
  intro nnn hcls hret
  refine ⟨decode_wordAddr_zero hcls hret, fun s a hpc => ?_⟩
  have hexec : exec (.sys nnn) s = .next (s.report .sysUnsupported (encode (.sys nnn))) := rfl
  exact ⟨_, hexec, report_reports_of_pc hpc _ _, report_frame s _ _⟩

/-- Settles O14: JP writes its zero-extended address to PC (R82, R122). -/
theorem jpSetsPc : Obligations.JpSetsPc := by
  intro nnn
  refine ⟨decode_wordAddr_one nnn, fun s => ?_⟩
  have hexec : exec (.jp nnn) s = .next (s.setPc (addrOperand nnn)) := rfl
  exact ⟨_, hexec, addrOperand_toNat nnn, setPc_frame s _⟩

end Sys2Proof.Machine
end

section
/-! PROOFS. The skips on registers (42_skips.md R140 to R143): which words they are, and that each is the
shared conditional skip (R110) on its own comparison. -/

namespace Sys2Proof

theorem decode_wordXKk_three (x : Nibble) (kk : Byte) :
    decode (wordXKk 0x3#4 x kk) = .ok (.seImm x kk) := by
  simp [decode]

theorem decode_wordXKk_four (x : Nibble) (kk : Byte) :
    decode (wordXKk 0x4#4 x kk) = .ok (.sneImm x kk) := by
  simp [decode]

/-- R86: of the words with first nibble 5, those that end in 0 are SE Vx, Vy. -/
theorem decode_wordXYN_five (x y : Nibble) :
    decode (wordXYN 0x5#4 x y 0x0#4) = .ok (.seReg x y) := by
  simp [decode]

/-- R86: of the words with first nibble 9, those that end in 0 are SNE Vx, Vy. -/
theorem decode_wordXYN_nine (x y : Nibble) :
    decode (wordXYN 0x9#4 x y 0x0#4) = .ok (.sneReg x y) := by
  simp [decode]

end Sys2Proof

namespace Sys2Proof.Machine

@[simp] theorem skipIf_true (s : State) : s.skipIf true = s.setPc (s.pc + 2) := rfl

@[simp] theorem skipIf_false (s : State) : s.skipIf false = s := rfl

/-- R110: an instruction whose whole effect is the shared skip on a test `b` skips exactly when the test's
meaning `c` holds. -/
theorem skipsWhen_of_exec_skipIf {i : Instr} {s : State} {b : Bool} {c : Prop}
    (hexec : exec i s = .next (s.skipIf b)) (hb : b = true ↔ c) : SkipsWhen i s c := by
  constructor
  case left =>
    intro hc
    rw [hb.mpr hc, skipIf_true] at hexec
    exact ⟨_, hexec, setPc_pc s _, setPc_frame s _⟩
  case right =>
    intro hc
    rwa [Bool.eq_false_of_not_eq_true (mt hb.mp hc), skipIf_false] at hexec

/-- SE tests for equality (R140, R142). -/
theorem skipsWhen_eq {i : Instr} {s : State} {a b : Byte}
    (hexec : exec i s = .next (s.skipIf (a == b))) : SkipsWhen i s (a = b) :=
  skipsWhen_of_exec_skipIf hexec beq_iff_eq

/-- SNE tests for inequality (R141, R143). -/
theorem skipsWhen_ne {i : Instr} {s : State} {a b : Byte}
    (hexec : exec i s = .next (s.skipIf (a != b))) : SkipsWhen i s (a ≠ b) :=
  skipsWhen_of_exec_skipIf hexec bne_iff_ne

/-- Settles O18, by the two formats of the words: each of the four is the shared skip on an equality or an
inequality (R110, R140 to R143). -/
theorem registerSkipsCompare : Obligations.RegisterSkipsCompare := by
  constructor
  case left =>
    intro x kk
    exact ⟨decode_wordXKk_three x kk, decode_wordXKk_four x kk, fun _ =>
      ⟨skipsWhen_eq rfl, skipsWhen_ne rfl⟩⟩
  case right =>
    intro x y
    exact ⟨decode_wordXYN_five x y, decode_wordXYN_nine x y, fun _ =>
      ⟨skipsWhen_eq rfl, skipsWhen_ne rfl⟩⟩

end Sys2Proof.Machine
end

section
/-! PROOFS. The two loads and ADD Vx, kk (43_alu.md R150 to R152): which words they are, and that each is one
write of Vx. -/

namespace Sys2Proof

theorem decode_wordXKk_six (x : Nibble) (kk : Byte) :
    decode (wordXKk 0x6#4 x kk) = .ok (.ldImm x kk) := by
  simp [decode]

theorem decode_wordXKk_seven (x : Nibble) (kk : Byte) :
    decode (wordXKk 0x7#4 x kk) = .ok (.addImm x kk) := by
  simp [decode]

/-- R86: of the words with first nibble 8, those that end in 0 are LD Vx, Vy. -/
theorem decode_wordXYN_eight_zero (x y : Nibble) :
    decode (wordXYN 0x8#4 x y 0x0#4) = .ok (.ldReg x y) := by
  simp [decode, decodeAlu]

end Sys2Proof

namespace Sys2Proof.Machine

/-- An instruction whose whole effect is one write of Vx completes with that value in Vx and nothing else
changed (R150 to R152). -/
theorem writesVx_of_exec_setV {i : Instr} {s : State} {x : Nibble} {b : Byte}
    (hexec : exec i s = .next (s.setV x b)) :
    ∃ t, exec i s = .next t ∧ t.getV x = b ∧ ChangesOnly [x] [] s t :=
  ⟨_, hexec, getV_setV_same s x b, setV_frame s x b⟩

/-- Settles O19, by the two formats of the words: each load is one write of Vx (R150, R152). -/
theorem loadsWriteVx : Obligations.LoadsWriteVx := by
  constructor
  case left => exact fun x kk => ⟨decode_wordXKk_six x kk, fun _ => writesVx_of_exec_setV rfl⟩
  case right => exact fun x y => ⟨decode_wordXYN_eight_zero x y, fun _ => writesVx_of_exec_setV rfl⟩

/-- Settles O20: ADD Vx, kk is one write of Vx, and the byte it writes is the sum modulo 256 (R151). -/
theorem addImmediateWrapsWithoutFlag : Obligations.AddImmediateWrapsWithoutFlag := by
  intro x kk
  refine ⟨decode_wordXKk_seven x kk, fun s => ?_⟩
  obtain ⟨t, hexec, hsum, hframe⟩ :
      ∃ t, exec (.addImm x kk) s = .next t ∧ t.getV x = s.getV x + kk ∧ ChangesOnly [x] [] s t :=
    writesVx_of_exec_setV rfl
  have hwrap : (t.getV x).toNat = ((s.getV x).toNat + kk.toNat) % 256 := by
    rw [hsum, BitVec.toNat_add]
  exact ⟨t, hexec, hwrap, hframe⟩

end Sys2Proof.Machine
end

section
/-! PROOFS. The two loads of I (44_index_memory.md R180, R182): which words they are, and that each is one write
of I. -/

namespace Sys2Proof

theorem decode_wordAddr_ten (nnn : Addr) : decode (wordAddr 0xA#4 nnn) = .ok (.ldI nnn) := by
  simp [decode]

/-- R86: of the words with first nibble F, those that end in 29 are LD F, Vx. -/
theorem decode_wordXKk_fifteen_font (x : Nibble) :
    decode (wordXKk 0xF#4 x 0x29#8) = .ok (.ldF x) := by
  simp [decode, decodeMisc]

end Sys2Proof

namespace Sys2Proof.Machine

/-- R82: a register keeps its number where it meets I. -/
@[simp] theorem wordV_toNat (s : State) (x : Nibble) : (s.wordV x).toNat = (s.getV x).toNat :=
  BitVec.toNat_setWidth_of_le (by decide)

/-- R182: five times a byte is at most 1275, so the product in I never wraps. -/
theorem wordV_mul_five_toNat (s : State) (x : Nibble) :
    (s.wordV x * 5).toNat = (s.getV x).toNat * 5 := by
  have hbyte : (s.getV x).toNat < 256 := (s.getV x).isLt
  have hfits : (s.getV x).toNat * 5 < 65536 := by omega
  calc (s.wordV x * 5).toNat
      = (s.getV x).toNat * 5 % 65536 := by rw [BitVec.toNat_mul, wordV_toNat]; rfl
    _ = (s.getV x).toNat * 5 := Nat.mod_eq_of_lt hfits

/-- An instruction whose whole effect is one write of I completes with that value's number in I and nothing
else changed (R180 to R182). -/
theorem writesI_of_exec_setI {i : Instr} {s : State} {a : Word} {n : Nat}
    (hexec : exec i s = .next (s.setI a)) (hn : a.toNat = n) :
    ∃ t, exec i s = .next t ∧ t.i.toNat = n ∧ ChangesOnly [] [.i] s t :=
  ⟨_, hexec, hn, setI_frame s a⟩

/-- Settles O26, by the two formats of the words: each load is one write of I, of an address that keeps its
number or of a product that does not wrap (R180, R182). -/
theorem indexLoadsWriteI : Obligations.IndexLoadsWriteI := by
  constructor
  case left =>
    exact fun nnn => ⟨decode_wordAddr_ten nnn, fun _ => writesI_of_exec_setI rfl (addrOperand_toNat nnn)⟩
  case right =>
    exact fun x => ⟨decode_wordXKk_fifteen_font x, fun s =>
      writesI_of_exec_setI rfl (wordV_mul_five_toNat s x)⟩

end Sys2Proof.Machine
end

section
/-! PROOFS. CLS (45_display.md R200): which word it is, and that it is the display's own clear. -/

namespace Sys2Proof.Machine

/-- R200: CLS completes in every state, and its whole effect is the display's clear (R61). -/
theorem exec_cls (s : State) : exec .cls s = .next s.dispClear := rfl

/-- Settles O35: the word is CLS, whose whole effect is the display's clear, and the clear's own laws give
each pixel, `changed` and the frame (R61, R200). -/
theorem clsClearsTheDisplay : Obligations.ClsClearsTheDisplay := by
  have hdecode : decode 0x00E0 = .ok .cls := rfl
  exact ⟨hdecode, fun s =>
    ⟨s.dispClear, exec_cls s, dispClear_pixel s, dispClear_changed s, dispClear_frame s⟩⟩

end Sys2Proof.Machine
end

section
/-! PROOFS. The three moves between a register and a timer (46_timers_keys.md R210 to R212): which words they
are, and which single write each of them is. -/

namespace Sys2Proof

/-- R86: of the words with first nibble F, those that end in 07 are LD Vx, DT. -/
theorem decode_wordXKk_fifteen_getDelay (x : Nibble) :
    decode (wordXKk 0xF#4 x 0x07#8) = .ok (.ldVxDt x) := by
  simp [decode, decodeMisc]

/-- R86: of the words with first nibble F, those that end in 15 are LD DT, Vx. -/
theorem decode_wordXKk_fifteen_setDelay (x : Nibble) :
    decode (wordXKk 0xF#4 x 0x15#8) = .ok (.ldDtVx x) := by
  simp [decode, decodeMisc]

/-- R86: of the words with first nibble F, those that end in 18 are LD ST, Vx. -/
theorem decode_wordXKk_fifteen_setSound (x : Nibble) :
    decode (wordXKk 0xF#4 x 0x18#8) = .ok (.ldStVx x) := by
  simp [decode, decodeMisc]

end Sys2Proof

namespace Sys2Proof.Machine

/-- R210: LD Vx, DT completes in every state, and its whole effect is the write of DT to Vx. -/
theorem exec_ldVxDt (x : Nibble) (s : State) : exec (.ldVxDt x) s = .next (s.setV x s.dt) := rfl

/-- R211: LD DT, Vx completes in every state, and its whole effect is the write of Vx to DT. -/
theorem exec_ldDtVx (x : Nibble) (s : State) : exec (.ldDtVx x) s = .next (s.setDt (s.getV x)) := rfl

/-- R212: LD ST, Vx completes in every state, and its whole effect is the write of Vx to ST. -/
theorem exec_ldStVx (x : Nibble) (s : State) : exec (.ldStVx x) s = .next (s.setSt (s.getV x)) := rfl

/-- Settles O38, by the three words: each decodes to its own move, and each move is one write of Vx, DT or ST,
whose laws give the value and the frame (R210 to R212). -/
theorem timerInstructionsMoveTheTimers : Obligations.TimerInstructionsMoveTheTimers := by
  intro x
  refine ⟨decode_wordXKk_fifteen_getDelay x, decode_wordXKk_fifteen_setDelay x,
    decode_wordXKk_fifteen_setSound x, fun s => ⟨?getDelay, ?setDelay, ?setSound⟩⟩
  case getDelay => exact writesVx_of_exec_setV (exec_ldVxDt x s)
  case setDelay => exact ⟨_, exec_ldDtVx x s, setDt_dt s (s.getV x), setDt_frame s (s.getV x)⟩
  case setSound => exact ⟨_, exec_ldStVx x s, setSt_st s (s.getV x), setSt_frame s (s.getV x)⟩

end Sys2Proof.Machine
end

section
/-! PROOFS. The timer tick (60_exceptions.md R241): what one decrement does to a byte, and that a tick is a write
of each timer while the session goes on and nothing after a fatal fault. -/

namespace Sys2Proof.Machine

/-- R241: the floor of a decrement is the one of subtraction on the naturals. -/
@[simp] theorem timerDown_toNat (b : Byte) : (timerDown b).toNat = b.toNat - 1 := by
  by_cases hb : b = 0
  · subst hb
    rfl
  · have hpos : 1 ≤ b.toNat := by bv_omega
    have hle : (1 : Byte) ≤ b := BitVec.le_def.mpr hpos
    rw [timerDown, if_neg hb, BitVec.toNat_sub_of_le hle]
    rfl

/-- While the session goes on, a tick is one write of DT and one of ST (R241). -/
theorem timerTick_running {s : State} (h : s.fatal = none) :
    timerTick s = (s.setDt (timerDown s.dt)).setSt (timerDown s.st) := by
  unfold timerTick
  split
  next r hr => exact absurd (hr.symm.trans h) (Option.some_ne_none r)
  next => rfl

/-- R235: after a fatal fault a tick has no effect. -/
theorem timerTick_ended {s : State} (h : s.fatal ≠ none) : timerTick s = s := by
  obtain ⟨r, hr⟩ := Option.ne_none_iff_exists'.mp h
  rw [timerTick, hr]

theorem transact_timerTick (s : State) : transact .timerTick s = .next (timerTick s) := rfl

/-- Two timer writes touch the timers alone. -/
theorem setDt_setSt_frame (s : State) (d b : Byte) :
    ChangesOnly [] [.dt, .st] s ((s.setDt d).setSt b) :=
  ((setDt_frame s d).mono (by simp) (by simp)).trans ((setSt_frame _ b).mono (by simp) (by simp))

/-- Settles O41, by whether the session has ended: while it goes on, the tick is a write of each timer, of a
byte one lower or 0; after a fatal fault it leaves the state as it is (R235, R241). -/
theorem timerTickDecrementsWithAFloor : Obligations.TimerTickDecrementsWithAFloor := by
  intro s
  refine ⟨fun hgoes => ?_, timerTick_ended, transact_timerTick s⟩
  rw [timerTick_running hgoes]
  exact ⟨timerDown_toNat s.dt, timerDown_toNat s.st, setDt_setSt_frame s _ _⟩

end Sys2Proof.Machine
end

section
/-! PROOFS. Decoding an encoded word (30_encoding.md R82 to R86): the word of each row not met above, and every
row together. -/

namespace Sys2Proof

theorem decode_wordAddr_two (nnn : Addr) : decode (wordAddr 0x2#4 nnn) = .ok (.call nnn) := by
  simp [decode]

theorem decode_wordAddr_eleven (nnn : Addr) : decode (wordAddr 0xB#4 nnn) = .ok (.jpV0 nnn) := by
  simp [decode]

theorem decode_wordXKk_twelve (x : Nibble) (kk : Byte) :
    decode (wordXKk 0xC#4 x kk) = .ok (.rnd x kk) := by
  simp [decode]

theorem decode_wordXYN_thirteen (x y n : Nibble) :
    decode (wordXYN 0xD#4 x y n) = .ok (.drw x y n) := by
  simp [decode]

/-! ### First nibble 8: the last nibble is the function code -/

theorem decode_wordXYN_eight (x y fn : Nibble) :
    decode (wordXYN 0x8#4 x y fn) = decodeAlu (wordXYN 0x8#4 x y fn) := by
  simp [decode]

theorem decode_wordXYN_eight_or (x y : Nibble) :
    decode (wordXYN 0x8#4 x y 0x1#4) = .ok (.orReg x y) := by
  simp [decode_wordXYN_eight, decodeAlu]

theorem decode_wordXYN_eight_and (x y : Nibble) :
    decode (wordXYN 0x8#4 x y 0x2#4) = .ok (.andReg x y) := by
  simp [decode_wordXYN_eight, decodeAlu]

theorem decode_wordXYN_eight_xor (x y : Nibble) :
    decode (wordXYN 0x8#4 x y 0x3#4) = .ok (.xorReg x y) := by
  simp [decode_wordXYN_eight, decodeAlu]

theorem decode_wordXYN_eight_add (x y : Nibble) :
    decode (wordXYN 0x8#4 x y 0x4#4) = .ok (.addReg x y) := by
  simp [decode_wordXYN_eight, decodeAlu]

theorem decode_wordXYN_eight_sub (x y : Nibble) :
    decode (wordXYN 0x8#4 x y 0x5#4) = .ok (.sub x y) := by
  simp [decode_wordXYN_eight, decodeAlu]

theorem decode_wordXYN_eight_shr (x y : Nibble) :
    decode (wordXYN 0x8#4 x y 0x6#4) = .ok (.shr x y) := by
  simp [decode_wordXYN_eight, decodeAlu]

theorem decode_wordXYN_eight_subn (x y : Nibble) :
    decode (wordXYN 0x8#4 x y 0x7#4) = .ok (.subn x y) := by
  simp [decode_wordXYN_eight, decodeAlu]

theorem decode_wordXYN_eight_shl (x y : Nibble) :
    decode (wordXYN 0x8#4 x y 0xE#4) = .ok (.shl x y) := by
  simp [decode_wordXYN_eight, decodeAlu]

/-! ### First nibbles E and F: the last byte is the function code -/

theorem decode_wordXKk_fourteen_pressed (x : Nibble) :
    decode (wordXKk 0xE#4 x 0x9E#8) = .ok (.skp x) := by
  simp [decode, decodeKeys]

theorem decode_wordXKk_fourteen_released (x : Nibble) :
    decode (wordXKk 0xE#4 x 0xA1#8) = .ok (.sknp x) := by
  simp [decode, decodeKeys]

theorem decode_wordXKk_fifteen_key (x : Nibble) :
    decode (wordXKk 0xF#4 x 0x0A#8) = .ok (.ldVxK x) := by
  simp [decode, decodeMisc]

theorem decode_wordXKk_fifteen_addI (x : Nibble) :
    decode (wordXKk 0xF#4 x 0x1E#8) = .ok (.addIVx x) := by
  simp [decode, decodeMisc]

theorem decode_wordXKk_fifteen_digits (x : Nibble) :
    decode (wordXKk 0xF#4 x 0x33#8) = .ok (.bcd x) := by
  simp [decode, decodeMisc]

theorem decode_wordXKk_fifteen_store (x : Nibble) :
    decode (wordXKk 0xF#4 x 0x55#8) = .ok (.storeRegs x) := by
  simp [decode, decodeMisc]

theorem decode_wordXKk_fifteen_load (x : Nibble) :
    decode (wordXKk 0xF#4 x 0x65#8) = .ok (.loadRegs x) := by
  simp [decode, decodeMisc]

/-! ### The statements -/

/-- R84: a well-formed SYS has neither the word of CLS nor that of RET. -/
theorem decode_encode_sys {nnn : Addr} (h : (Instr.sys nnn).wf = true) :
    decode (encode (.sys nnn)) = .ok (.sys nnn) := by
  obtain ⟨hcls, hret⟩ : nnn ≠ 0x0E0 ∧ nnn ≠ 0x0EE := by simpa [Instr.wf] using h
  exact decode_wordAddr_zero hcls hret

/-- The decoder inverts the encoder, row by row of the opcode map (R85). -/
theorem decode_encode : ∀ {i : Instr}, i.wf = true → decode (encode i) = .ok i
  | .cls, _ => rfl
  | .ret, _ => rfl
  | .sys _, h => decode_encode_sys h
  | .jp nnn, _ => decode_wordAddr_one nnn
  | .call nnn, _ => decode_wordAddr_two nnn
  | .seImm x kk, _ => decode_wordXKk_three x kk
  | .sneImm x kk, _ => decode_wordXKk_four x kk
  | .seReg x y, _ => decode_wordXYN_five x y
  | .ldImm x kk, _ => decode_wordXKk_six x kk
  | .addImm x kk, _ => decode_wordXKk_seven x kk
  | .ldReg x y, _ => decode_wordXYN_eight_zero x y
  | .orReg x y, _ => decode_wordXYN_eight_or x y
  | .andReg x y, _ => decode_wordXYN_eight_and x y
  | .xorReg x y, _ => decode_wordXYN_eight_xor x y
  | .addReg x y, _ => decode_wordXYN_eight_add x y
  | .sub x y, _ => decode_wordXYN_eight_sub x y
  | .shr x y, _ => decode_wordXYN_eight_shr x y
  | .subn x y, _ => decode_wordXYN_eight_subn x y
  | .shl x y, _ => decode_wordXYN_eight_shl x y
  | .sneReg x y, _ => decode_wordXYN_nine x y
  | .ldI nnn, _ => decode_wordAddr_ten nnn
  | .jpV0 nnn, _ => decode_wordAddr_eleven nnn
  | .rnd x kk, _ => decode_wordXKk_twelve x kk
  | .drw x y n, _ => decode_wordXYN_thirteen x y n
  | .skp x, _ => decode_wordXKk_fourteen_pressed x
  | .sknp x, _ => decode_wordXKk_fourteen_released x
  | .ldVxDt x, _ => decode_wordXKk_fifteen_getDelay x
  | .ldVxK x, _ => decode_wordXKk_fifteen_key x
  | .ldDtVx x, _ => decode_wordXKk_fifteen_setDelay x
  | .ldStVx x, _ => decode_wordXKk_fifteen_setSound x
  | .addIVx x, _ => decode_wordXKk_fifteen_addI x
  | .ldF x, _ => decode_wordXKk_fifteen_font x
  | .bcd x, _ => decode_wordXKk_fifteen_digits x
  | .storeRegs x, _ => decode_wordXKk_fifteen_store x
  | .loadRegs x, _ => decode_wordXKk_fifteen_load x

/-- Settles O1, by the rows of the opcode map: the word of each row decodes to the row's own instruction, SYS
away from the two words that CLS and RET take (R84, R85). -/
theorem decodeOfEncodeIsTheInstruction : Obligations.DecodeOfEncodeIsTheInstruction :=
  fun _ => decode_encode

/-- Settles O4, by running the decoder on the eleven literal words (R85, R86). -/
theorem exampleWordsDecode : Obligations.ExampleWordsDecode :=
  ⟨rfl, rfl, rfl, rfl, rfl, rfl, rfl, rfl, rfl, rfl, rfl⟩

end Sys2Proof
end

section
/-! PROOFS. The undefined words (30_encoding.md R86): which function codes each first nibble leaves out, and the
fields of a word as parts of its number. -/

namespace Sys2Proof

theorem nibble0_toNat (w : Word) : (nibble0 w).toNat = w.toNat / 4096 := by
  have := w.isLt
  simp [nibble0, Nat.shiftRight_eq_div_pow]
  omega

theorem fieldN_toNat (w : Word) : (fieldN w).toNat = w.toNat % 16 := by
  simp [fieldN]

theorem fieldKk_toNat (w : Word) : (fieldKk w).toNat = w.toNat % 256 := by
  simp [fieldKk]

theorem decodeAlu_error_iff (w : Word) : decodeAlu w = .error (.undefinedWord w) ↔
    (fieldN w).toNat ∈ [0x8, 0x9, 0xA, 0xB, 0xC, 0xD, 0xF] := by
  have key : ∀ fn : Nibble, fn ∉ [0x0, 0x1, 0x2, 0x3, 0x4, 0x5, 0x6, 0x7, 0xE] ↔
    fn.toNat ∈ [0x8, 0x9, 0xA, 0xB, 0xC, 0xD, 0xF] := by decide
  rw [← key]
  simp only [decodeAlu]
  split_ifs <;> simp [*]

theorem decodeKeys_error_iff (w : Word) : decodeKeys w = .error (.undefinedWord w) ↔
    (fieldKk w).toNat ∉ [0x9E, 0xA1] := by
  simp only [decodeKeys]
  split_ifs <;> simp_all [← BitVec.toNat_inj]

theorem decodeMisc_error_iff (w : Word) : decodeMisc w = .error (.undefinedWord w) ↔
    (fieldKk w).toNat ∉ [0x07, 0x0A, 0x15, 0x18, 0x1E, 0x29, 0x33, 0x55, 0x65] := by
  simp only [decodeMisc]
  split_ifs <;> simp_all [← BitVec.toNat_inj]

/-- R86 by first nibble: the five that have undefined words. -/
theorem decode_error_iff (w : Word) : decode w = .error (.undefinedWord w) ↔
    (nibble0 w = 0x5 ∧ fieldN w ≠ 0x0) ∨
    (nibble0 w = 0x8 ∧ (fieldN w).toNat ∈ [0x8, 0x9, 0xA, 0xB, 0xC, 0xD, 0xF]) ∨
    (nibble0 w = 0x9 ∧ fieldN w ≠ 0x0) ∨
    (nibble0 w = 0xE ∧ (fieldKk w).toNat ∉ [0x9E, 0xA1]) ∨
    (nibble0 w = 0xF ∧ (fieldKk w).toNat ∉ [0x07, 0x0A, 0x15, 0x18, 0x1E, 0x29, 0x33, 0x55, 0x65]) := by
  have hop : ∀ op : Nibble, op = 0x0 ∨ op = 0x1 ∨ op = 0x2 ∨ op = 0x3 ∨ op = 0x4 ∨ op = 0x5 ∨ op = 0x6 ∨
      op = 0x7 ∨ op = 0x8 ∨ op = 0x9 ∨ op = 0xA ∨ op = 0xB ∨ op = 0xC ∨ op = 0xD ∨ op = 0xE ∨ op = 0xF := by
    decide
  rw [← decodeAlu_error_iff, ← decodeKeys_error_iff, ← decodeMisc_error_iff]
  rcases hop (nibble0 w) with h | h | h | h | h | h | h | h | h | h | h | h | h | h | h | h
  all_goals simp [decode, h]

theorem nibble0_eq_iff (w : Word) (op : Nibble) : nibble0 w = op ↔ w.toNat / 4096 = op.toNat := by
  rw [← nibble0_toNat, BitVec.toNat_inj]

theorem fieldN_eq_iff (w : Word) (fn : Nibble) : fieldN w = fn ↔ w.toNat % 16 = fn.toNat := by
  rw [← fieldN_toNat, BitVec.toNat_inj]

/-- Settles O3: by first nibble, the codes that the decoder's branches leave out are those of R86's table, and
each field is a part of the word's number. -/
theorem undefinedWordsAreThoseOfTheTable : Obligations.UndefinedWordsAreThoseOfTheTable := by
  intro w
  rw [decode_error_iff, fieldN_toNat, fieldKk_toNat]
  simp only [nibble0_eq_iff, ne_eq, fieldN_eq_iff]
  rfl

end Sys2Proof
end

section
/-! PROOFS. The assembler (30_encoding.md section 3, R89, R90): a field's number is read back as the field, and
so is each form of R85's column of written forms. -/

namespace Sys2Proof.Machine

/-- R89: the number of an immediate field fits the field. -/
@[simp] theorem immediate_toNat {k : Nat} (b : BitVec k) : immediate k b.toNat = some b := by
  simp [immediate, b.isLt]

/-- Every written form of R85 is read back (R90). The forms with a number read it through its
field, SYS under the check of R84; the others are read token by token. -/
theorem assemble_syntaxOf {i : Instr} (h : i.wf = true) :
    assemble (syntaxOf i).1 (syntaxOf i).2 = some i := by
  cases i
  case sys nnn => simp [syntaxOf, assemble, assembleNumbers, assembleSys, h]
  case jp | jpV0 => simp [syntaxOf, assemble, assembleJp]
  case call | rnd | drw => simp [syntaxOf, assemble, assembleNumbers]
  case seImm | sneImm => simp [syntaxOf, assemble, assembleSkip]
  case ldImm | ldI => simp [syntaxOf, assemble, assembleLd]
  case addImm => simp [syntaxOf, assemble, assembleAdd]
  all_goals rfl

/-- Settles O5, by the written forms of R85 and the five other spellings (R89, R90). -/
theorem assemblerReadsTheSyntaxBack : Obligations.AssemblerReadsTheSyntaxBack := by
  refine ⟨fun i => assemble_syntaxOf, fun x => ⟨rfl, rfl, rfl, rfl⟩, fun nnn => ?_⟩
  simp [assemble, assembleJp]

end Sys2Proof.Machine
end

section
/-! PROOFS. Every way a transaction answers a next state, said once and by name, and what the answers of the
instructions that branch are: the rules about the whole machine cite these. -/

namespace Sys2Proof.Machine

/-! ### Transactions -/

/-- From `s`, the transaction answers the next state `t`, and this is how (R100, R105, R108, R235, R241,
R252 to R254). -/
inductive Did (s t : State) : Transaction → Prop where
  | ran {i : Instr} (hfetch : s.fetches) (hdecode : decode s.wordAtPc = .ok i)
      (hexec : exec i (s.setPc (s.pc + 2)) = .next t) : Did s t .cpuStep
  | reported {e : DecodeError} (hfetch : s.fetches) (hdecode : decode s.wordAtPc = .error e)
      (ht : t = (s.setPc (s.pc + 2)).report .undefinedInstruction s.wordAtPc) : Did s t .cpuStep
  | polled {x : Nibble} (hmode : s.mode = .awaitKey x) (ht : t = awaitStep x s) : Did s t .cpuStep
  | ended (hfatal : s.fatal ≠ none) (ht : t = s) : Did s t .cpuStep
  | ticked (ht : t = timerTick s) : Did s t .timerTick
  | keyed (k : Nibble) (level : Bool) (ht : t = keyWrite k level s) : Did s t (.keyWrite k level)
  | shown (ht : t = s) : Did s t .displayRead
  | acked (ht : t = displayAck s) : Did s t .displayAck

theorem transact_did {tr : Transaction} {s t : State} (h : transact tr s = .next t) : Did s t tr := by
  cases tr
  case cpuStep =>
    obtain ⟨hfatal, ht⟩ | ⟨-, x, hmode, ht⟩ | ⟨hfetch, i, hdecode, hexec⟩ | ⟨hfetch, ⟨e, hdecode⟩, ht⟩ :=
      cpuStep_cases h
    · exact .ended hfatal ht
    · exact .polled hmode ht
    · exact .ran hfetch hdecode hexec
    · exact .reported hfetch hdecode ht
  case timerTick => exact .ticked (Host.Outcome.next.inj h).symm
  case keyWrite k level => exact .keyed k level (Host.Outcome.next.inj h).symm
  case displayRead => exact .shown (Host.Outcome.next.inj h).symm
  case displayAck => exact .acked (Host.Outcome.next.inj h).symm

/-- A step is some transaction, in the state whose host list is what the host does after it (R256, log 4). -/
theorem step_eq_transact (s : State) :
    ∃ tr rest, step s = transact tr { s with host := rest } := by
  rw [step_eq]
  cases hhost : s.host with
  | nil =>
    have hs : { s with host := [] } = s := by rw [← hhost]
    exact ⟨.cpuStep, [], by rw [hs]; rfl⟩
  | cons tr rest => exact ⟨tr, rest, rfl⟩

/-- A tick writes the two timers at most (R241). -/
theorem timerTick_frame (s : State) : ChangesOnly [] [.dt, .st] s (timerTick s) := by
  by_cases h : s.fatal = none
  · rw [timerTick_running h]
    exact setDt_setSt_frame s _ _
  · rw [timerTick_ended h]
    exact .refl _ _ _

@[simp] theorem timerTick_mem (s : State) : (timerTick s).mem = s.mem := by
  unfold timerTick
  split <;> rfl

@[simp] theorem timerTick_pix (s : State) : (timerTick s).pix = s.pix := by
  unfold timerTick
  split <;> rfl

@[simp] theorem awaitStep_mem (x : Nibble) (s : State) : (awaitStep x s).mem = s.mem := by
  unfold awaitStep
  split <;> rfl

@[simp] theorem awaitStep_pix (x : Nibble) (s : State) : (awaitStep x s).pix = s.pix := by
  unfold awaitStep
  split <;> rfl

/-! ### Instructions that branch -/

theorem answerOf_next {e : Except Fault State} {t : State} (h : answerOf e = .next t) : e = .ok t := by
  cases e with
  | ok u => exact congrArg _ (Host.Outcome.next.inj h)
  | error f => cases h

@[simp] theorem skipIf_mem (s : State) (c : Bool) : (s.skipIf c).mem = s.mem := by cases c <;> rfl

theorem skipOnKey_next {k : Byte} {level : Bool} {s t : State} (h : skipOnKey k level s = .next t) :
    ∃ c, t = s.skipIf c := by
  unfold skipOnKey at h
  split at h
  · exact ⟨_, (Host.Outcome.next.inj h).symm⟩
  · cases h

/-- R110: the six skips. -/
theorem exec_skip_next {i : Instr} {x y : Nibble} {kk : Byte} {s t : State}
    (hi : i ∈ [Instr.seImm x kk, .sneImm x kk, .seReg x y, .sneReg x y, .skp x, .sknp x])
    (h : exec i s = .next t) : ∃ c, t = s.skipIf c := by
  simp only [List.mem_cons, List.not_mem_nil, or_false] at hi
  obtain rfl | rfl | rfl | rfl | rfl | rfl := hi
  · exact ⟨_, (Host.Outcome.next.inj h).symm⟩
  · exact ⟨_, (Host.Outcome.next.inj h).symm⟩
  · exact ⟨_, (Host.Outcome.next.inj h).symm⟩
  · exact ⟨_, (Host.Outcome.next.inj h).symm⟩
  · exact skipOnKey_next h
  · exact skipOnKey_next h

/-- R120: a RET pops, or reports an empty stack. -/
theorem exec_ret_next {s t : State} (h : exec .ret s = .next t) :
    (s.stack = [] ∧ t = s.report .stackUnderflow (encode .ret)) ∨
    ∃ b rest, s.stack = b :: rest ∧ t = { s with stack := rest, pc := b } := by
  cases hs : s.stack with
  | nil => exact .inl ⟨rfl, Host.Outcome.next.inj (h.symm.trans (exec_ret_of_nil hs))⟩
  | cons b rest => exact .inr ⟨b, rest, rfl, Host.Outcome.next.inj (h.symm.trans (exec_ret_of_cons hs))⟩

/-- R125: a CALL on a full bounded stack. -/
theorem exec_call_of_full {nnn : Addr} {s : State} (h : s.stackFull = true) :
    exec (.call nnn) s = .fault (.stackOverflow s.instrAddr) := by
  simp only [exec, execCall, h, if_true, raiseFatal]

/-- R123: a CALL with room on the stack. -/
theorem exec_call_of_room {nnn : Addr} {s : State} (h : s.stackFull = false) :
    exec (.call nnn) s = .next ((s.push s.pc).setPc (addrOperand nnn)) := by
  simp only [exec, execCall, h, Bool.false_eq_true, if_false]

/-- R123: a CALL that completes found room on the stack. -/
theorem exec_call_next {nnn : Addr} {s t : State} (h : exec (.call nnn) s = .next t) :
    s.stackFull = false ∧ t = (s.push s.pc).setPc (addrOperand nnn) := by
  cases hfull : s.stackFull with
  | true => cases h.symm.trans (exec_call_of_full hfull)
  | false => exact ⟨rfl, Host.Outcome.next.inj (h.symm.trans (exec_call_of_room hfull))⟩

/-- R215: LD Vx, K takes a key or enters the wait. -/
theorem exec_ldVxK_next {x : Nibble} {s t : State} (h : exec (.ldVxK x) s = .next t) :
    (∃ k, s.keyScan = some k ∧ t = s.setV x (k.setWidth 8)) ∨
    (s.keyScan = none ∧ t = s.setMode (.awaitKey x)) := by
  simp only [exec, execLdVxK] at h
  split at h
  next k hk => exact .inl ⟨k, hk, (Host.Outcome.next.inj h).symm⟩
  next hk => exact .inr ⟨hk, (Host.Outcome.next.inj h).symm⟩

/-- A sprite has fewer rows than the display (R204). -/
theorem rows_le_height (n : Nibble) : n.toNat ≤ Config.height :=
  Nat.le_of_lt (Nat.lt_trans n.isLt (by decide))

/-- R201: a DRW that completes changed the display alone, and then VF. -/
theorem exec_drw_next {x y n : Nibble} {s t : State} (h : exec (.drw x y n) s = .next t) :
    ∃ u hit, OnlyDisplay s u ∧ (u.changed = true ∨ u.changed = s.changed) ∧ t = u.setVf hit := by
  obtain ⟨u, hit, hu, hd, hc⟩ | ⟨c, -, hc⟩ :=
    drawRows_cases s (s.getV x).toNat (s.getV y).toNat s.base n.toNat (rows_le_height n)
  · simp only [exec, execDrw, hu] at h
    exact ⟨u, hit, hd, hc, (Host.Outcome.next.inj h).symm⟩
  · simp [exec, execDrw, hc, raiseFatal] at h

theorem OnlyDisplay.mem {s t : State} (h : OnlyDisplay s t) : t.mem = s.mem := by rw [h]

/-- R183, R184: stored bytes that are answered are a memory as canonical as before. -/
theorem answerOf_storeBytes_next {s t : State} {a : Nat} {bs : List Byte}
    (h : answerOf (s.storeBytes a bs) = .next t) : s.mem.wf = true → t.mem.wf = true := by
  obtain ⟨m, hm, hwf⟩ | ⟨c, -, hc⟩ := storeBytes_cases s a bs
  · obtain rfl := Except.ok.inj (hm.symm.trans (answerOf_next h))
    exact hwf
  · cases hc.symm.trans (answerOf_next h)

/-- R185: loaded registers that are answered are all that changed. -/
theorem exec_loadRegs_next {x : Nibble} {s t : State} (h : exec (.loadRegs x) s = .next t) :
    ∃ v, t = { s with v := v } := by
  obtain ⟨v, hv, -⟩ | ⟨c, -, hc⟩ := loadFrom_cases s s.base (x.toNat + 1) x.isLt
  · exact ⟨v, Except.ok.inj ((answerOf_next h).symm.trans hv)⟩
  · cases hc.symm.trans (answerOf_next h)

/-! ### What an instruction does to memory, to the stack and to PC -/

/-- Memory is the same list after every instruction but LD B, Vx and LD [I], Vx (R33). -/
theorem exec_mem {i : Instr} {s t : State} (h : exec i s = .next t) (hi : .mem ∉ footParts i) :
    t.mem = s.mem := by
  cases i
  case bcd | storeRegs => exact absurd (List.mem_singleton_self _) hi
  case ret => obtain ⟨-, rfl⟩ | ⟨b, rest, -, rfl⟩ := exec_ret_next h <;> rfl
  case call => obtain ⟨-, rfl⟩ := exec_call_next h; rfl
  case ldVxK => obtain ⟨k, -, rfl⟩ | ⟨-, rfl⟩ := exec_ldVxK_next h <;> rfl
  case drw => obtain ⟨u, hit, hu, -, rfl⟩ := exec_drw_next h; exact hu.mem
  case loadRegs => obtain ⟨v, rfl⟩ := exec_loadRegs_next h; rfl
  case skp | sknp => obtain ⟨c, rfl⟩ := skipOnKey_next h; exact skipIf_mem s c
  case seImm | sneImm | seReg | sneReg => cases h; exact skipIf_mem s _
  all_goals cases h; rfl

theorem exec_keeps_wf {i : Instr} {s t : State} (h : exec i s = .next t) (hwf : s.mem.wf = true) :
    t.mem.wf = true := by
  cases i
  case bcd | storeRegs => exact answerOf_storeBytes_next h hwf
  all_goals exact exec_mem h (by simp [footParts]) ▸ hwf

/-- The stack is as it was, or a CALL pushed the post-fetch PC, or a RET popped the top into PC (R120,
R123). -/
theorem exec_stack_cases {i : Instr} {s t : State} (h : exec i s = .next t) :
    t.stack = s.stack ∨
    (∃ nnn, i = .call nnn ∧ s.stackFull = false ∧ t.stack = s.pc :: s.stack) ∨
    (i = .ret ∧ s.stack = t.pc :: t.stack) := by
  cases i
  case ret =>
    obtain ⟨-, rfl⟩ | ⟨b, rest, hs, rfl⟩ := exec_ret_next h
    · exact .inl rfl
    · exact .inr (.inr ⟨rfl, hs⟩)
  case call nnn =>
    obtain ⟨hroom, rfl⟩ := exec_call_next h
    exact .inr (.inl ⟨nnn, rfl, hroom, rfl⟩)
  all_goals exact .inl ((exec_frame _ s t h).stack (by simp [footParts]))

theorem pc_not_mem_footParts {i : Instr} (h : i.writesPc = false) : .pc ∉ footParts i := by
  cases i <;> simp_all [footParts, Instr.writesPc]

/-- R106: PC stays as the fetch left it after an instruction that is none of its writers. -/
theorem exec_pc {i : Instr} {s t : State} (hi : i.writesPc = false) (h : exec i s = .next t) :
    t.pc = s.pc :=
  (exec_frame i s t h).pc (pc_not_mem_footParts hi)

/-- R110: a skip leaves PC or moves it past one slot. -/
theorem skipIf_pc (s : State) (c : Bool) : (s.skipIf c).pc = s.pc ∨ (s.skipIf c).pc = s.pc + 2 := by
  cases c
  · exact .inl rfl
  · exact .inr rfl

theorem stackFull_iff (s : State) : s.stackFull = true ↔ s.stackDepth = some s.stack.length := by
  unfold State.stackFull
  split
  next hd => simp [hd]
  next d hd => rw [hd, beq_iff_eq, Option.some.injEq, eq_comm]

end Sys2Proof.Machine
end

section
/-! PROOFS. The invariant of the machine: reset and every session's start meet it, every step keeps it, and so
every reachable state meets it (10_state.md sections 3, 6 and 7). -/

namespace Sys2Proof.Machine

/-! ### Instructions -/

/-- PC after an instruction: past one more slot at most, an address of 12 bits, V0 beyond one, or a return
address (R106, R110, R120, R122 to R124). -/
theorem exec_pc_le {i : Instr} {s t : State} (hpc : s.pc.toNat ≤ 0x1000)
    (hstack : ∀ a ∈ s.stack, a.toNat ≤ 0x1000) (h : exec i s = .next t) : t.pc.toNat ≤ 0x10FE := by
  have hskip (c : Bool) : (s.skipIf c).pc.toNat ≤ 0x10FE := by
    obtain hc | hc := skipIf_pc s c
    · rw [hc]; omega
    · rw [hc]; bv_omega
  have haddr (nnn : Addr) : (addrOperand nnn).toNat ≤ 0xFFF := by
    rw [addrOperand_toNat]; exact Nat.le_of_lt_succ nnn.isLt
  cases i
  case skp | sknp => obtain ⟨c, rfl⟩ := skipOnKey_next h; exact hskip c
  case seImm | sneImm | seReg | sneReg => cases h; exact hskip _
  case jp nnn => cases h; exact (haddr nnn).trans (by decide)
  case call nnn => obtain ⟨-, rfl⟩ := exec_call_next h; exact (haddr nnn).trans (by decide)
  case jpV0 nnn =>
    cases h
    have hv : (s.wordV 0).toNat < 256 := wordV_toNat s 0 ▸ (s.getV 0).isLt
    have := haddr nnn
    simp only [setPc_pc, State.offsetTarget]
    bv_omega
  case ret =>
    obtain ⟨-, rfl⟩ | ⟨b, rest, hs, rfl⟩ := exec_ret_next h
    · exact hpc.trans (by decide)
    · exact (hstack b (by simp [hs])).trans (by decide)
  all_goals exact exec_pc rfl h ▸ hpc.trans (by decide)

/-- Every entry of the stack is an old one or the post-fetch PC of a CALL (R123). -/
theorem exec_stack_le {i : Instr} {s t : State} (hpc : s.pc.toNat ≤ 0x1000)
    (hstack : ∀ a ∈ s.stack, a.toNat ≤ 0x1000) (h : exec i s = .next t) :
    ∀ a ∈ t.stack, a.toNat ≤ 0x1000 := by
  obtain hs | ⟨nnn, -, -, hs⟩ | ⟨-, hs⟩ := exec_stack_cases h
  · rwa [hs]
  · rw [hs]
    exact List.forall_mem_cons.mpr ⟨hpc, hstack⟩
  · rw [hs] at hstack
    exact (List.forall_mem_cons.mp hstack).2

/-- A CALL finds a bounded stack below its depth, or it faults (R125). -/
theorem exec_stack_bounded {i : Instr} {s t : State}
    (hbound : ∀ d, s.stackDepth = some d → s.stack.length ≤ d) (h : exec i s = .next t) :
    ∀ d, s.stackDepth = some d → t.stack.length ≤ d := by
  intro d hd
  have hle := hbound d hd
  obtain hs | ⟨nnn, -, hroom, hs⟩ | ⟨-, hs⟩ := exec_stack_cases h
  · rwa [hs]
  · have hne : s.stack.length ≠ d := by
      rintro rfl
      rw [(stackFull_iff s).mpr hd] at hroom
      cases hroom
    rw [hs, List.length_cons]
    omega
  · rw [hs, List.length_cons] at hle
    omega

theorem exec_keeps_inv {i : Instr} {s t : State} (hs : s.Inv) (hpc : s.pc.toNat ≤ 0x1000)
    (h : exec i s = .next t) : t.Inv := by
  have hdepth : t.stackDepth = s.stackDepth := (exec_frame i s t h).stackDepth
  refine ⟨exec_keeps_wf h hs.mem, exec_pc_le hpc hs.stack h, exec_stack_le hpc hs.stack h, ?_, ?_⟩
  · rw [hdepth]
    exact hs.depth
  · rw [hdepth]
    exact exec_stack_bounded hs.bounded h

/-! ### Transactions and steps -/

/-- The invariant speaks of four fields. -/
theorem State.Inv.of_eq {s t : State} (hs : s.Inv) (hmem : t.mem = s.mem) (hpc : t.pc = s.pc)
    (hstack : t.stack = s.stack) (hdepth : t.stackDepth = s.stackDepth) : t.Inv :=
  ⟨hmem ▸ hs.mem, hpc ▸ hs.pc, hstack ▸ hs.stack, hdepth ▸ hs.depth, hdepth ▸ hstack ▸ hs.bounded⟩

/-- R24: the fetch lies inside memory, so its increment takes PC to 0x1000 at most. -/
theorem fetched_pc_le {s : State} (h : s.fetches) : (s.pc + 2).toNat ≤ 0x1000 := by
  obtain ⟨-, -, hpc⟩ := h
  simp only [Config.memSize] at hpc
  bv_omega

theorem fetched_inv {s : State} (hs : s.Inv) (h : s.fetches) : (s.setPc (s.pc + 2)).Inv :=
  ⟨hs.mem, (fetched_pc_le h).trans (by decide), hs.stack, hs.depth, hs.bounded⟩

theorem transact_keeps_inv {tr : Transaction} {s t : State} (hs : s.Inv) (h : transact tr s = .next t) :
    t.Inv := by
  cases transact_did h with
  | ran hfetch hdecode hexec => exact exec_keeps_inv (fetched_inv hs hfetch) (fetched_pc_le hfetch) hexec
  | reported hfetch hdecode ht => exact ht ▸ (fetched_inv hs hfetch).of_eq rfl rfl rfl rfl
  | @polled x hmode ht =>
    have hf := awaitStep_frame x s
    exact ht ▸ hs.of_eq (awaitStep_mem x s) (hf.pc (by simp)) (hf.stack (by simp)) hf.stackDepth
  | ended hfatal ht => exact ht ▸ hs
  | ticked ht =>
    have hf := timerTick_frame s
    exact ht ▸ hs.of_eq (timerTick_mem s) (hf.pc (by simp)) (hf.stack (by simp)) hf.stackDepth
  | keyed k level ht => exact ht ▸ hs.of_eq rfl rfl rfl rfl
  | shown ht => exact ht ▸ hs
  | acked ht => exact ht ▸ hs.of_eq rfl rfl rfl rfl

/-- Settles O46: a step is a transaction, and each way a transaction answers keeps the four fields or runs an
instruction after the fetch, which keeps the invariant part by part. -/
theorem everyStepKeepsTheInvariant : Obligations.EveryStepKeepsTheInvariant := by
  intro s t hs h
  obtain ⟨tr, rest, htr⟩ := step_eq_transact s
  have hs' : { s with host := rest }.Inv := hs.of_eq rfl rfl rfl rfl
  exact transact_keeps_inv hs' (htr.symm.trans h)

/-! ### Reset and the start of a session -/

theorem reset_inv : State.reset.Inv where
  mem := rfl
  pc := by decide
  stack := List.forall_mem_nil _
  depth := trivial
  bounded := fun _ h => nomatch h

/-- R262: what is loaded of an image ends with memory. -/
theorem loadedImage_length_le (image : List Byte) :
    Config.programStart + (image.take (Config.memSize - Config.programStart)).length ≤ Config.memSize := by
  simp only [List.length_take, Config.programStart, Config.memSize]
  omega

theorem start_mem_wf (p : BootParams) (image : List Byte) : (State.start p image).mem.wf = true := by
  have hfont : Config.fontBase + p.font.toList.length ≤ Config.memSize := by
    simp [Config.fontBase, Config.fontSize, Config.memSize]
  exact wf_writeAll _ _ _ (loadedImage_length_le image) (wf_writeAll _ _ _ hfont rfl)

theorem start_inv (p : BootParams) (image : List Byte) (h : legalDepth p.stackDepth) :
    (State.start p image).Inv where
  mem := start_mem_wf p image
  pc := reset_inv.pc
  stack := reset_inv.stack
  depth := h
  bounded := fun d _ => Nat.zero_le d

/-- Settles O47: at reset no byte is listed and the stack is empty; a session's start writes its font and its
image inside memory (R260 to R262). -/
theorem resetMeetsTheInvariant : Obligations.ResetMeetsTheInvariant :=
  ⟨reset_inv, start_inv⟩

/-- Settles O48, by induction on how the state is reached: a start meets the invariant and a step keeps it. -/
theorem reachableStatesMeetTheInvariant : Obligations.ReachableStatesMeetTheInvariant := by
  intro s hs
  induction hs with
  | start p image h => exact start_inv p image h
  | step _ hstep ih => exact everyStepKeepsTheInvariant _ _ ih hstep

end Sys2Proof.Machine
end

section
/-! PROOFS. Who writes what (10_state.md, the tables of writers): for each part of the state, the instructions
whose footprint holds it, and the transactions that change it besides. -/

namespace Sys2Proof.Machine

/-! ### The writers of each part among the instructions -/

theorem writer_of_mem {i : Instr} (h : .mem ∈ footParts i) : ∃ x, i = .bcd x ∨ i = .storeRegs x := by
  cases i <;> simp_all [footParts]

theorem writer_of_pix {i : Instr} (h : .pix ∈ footParts i) : i = .cls ∨ ∃ x y n, i = .drw x y n := by
  cases i <;> simp_all [footParts]

theorem writer_of_changed {i : Instr} (h : .changed ∈ footParts i) :
    i = .cls ∨ ∃ x y n, i = .drw x y n := by
  cases i <;> simp_all [footParts]

theorem writer_of_i {i : Instr} (h : .i ∈ footParts i) :
    (∃ nnn, i = .ldI nnn) ∨ ∃ x, i = .addIVx x ∨ i = .ldF x := by
  cases i <;> simp_all [footParts]

theorem writer_of_dt {i : Instr} (h : .dt ∈ footParts i) : ∃ x, i = .ldDtVx x := by
  cases i <;> simp_all [footParts]

theorem writer_of_st {i : Instr} (h : .st ∈ footParts i) : ∃ x, i = .ldStVx x := by
  cases i <;> simp_all [footParts]

theorem writer_of_mode {i : Instr} (h : .mode ∈ footParts i) : ∃ x, i = .ldVxK x := by
  cases i <;> simp_all [footParts]

theorem writer_of_reports {i : Instr} (h : .reports ∈ footParts i) : i = .ret ∨ ∃ nnn, i = .sys nnn := by
  cases i <;> simp_all [footParts]

/-- The footprint in the V registers is the table of R21. -/
theorem writesV_of_mem_footV {i : Instr} {j : Nibble} (h : j ∈ footV i) : i.writesV j = true := by
  cases i <;> simp_all [footV, Instr.writesV, mem_registersUpTo]

/-! ### Parts that only instructions and ticks write -/

/-- What `f` reads of a state is written by no fetch, report, poll, key_write or display_ack. -/
structure KeptByHost {α : Type} (f : State → α) : Prop where
  fetch : ∀ s a, f (s.setPc a) = f s
  report : ∀ s k w, f (s.report k w) = f s
  poll : ∀ x s, f (awaitStep x s) = f s
  key : ∀ k l s, f (keyWrite k l s) = f s
  ack : ∀ s, f (displayAck s) = f s

/-- A change of such a part comes from an instruction, which made it after the fetch, or from a tick. -/
theorem KeptByHost.cases {α : Type} {f : State → α} (hf : KeptByHost f) {tr : Transaction} {s t : State}
    (h : transact tr s = .next t) (hne : f t ≠ f s) :
    (∃ i, s.runs tr i ∧ exec i (s.setPc (s.pc + 2)) = .next t ∧ f t ≠ f (s.setPc (s.pc + 2))) ∨
    (tr = .timerTick ∧ t = timerTick s) := by
  cases transact_did h with
  | @ran i hfetch hdecode hexec =>
    exact .inl ⟨i, ⟨rfl, hfetch, hdecode⟩, hexec, (hf.fetch s _).symm ▸ hne⟩
  | reported hfetch hdecode ht => exact absurd (ht ▸ (hf.report _ _ _).trans (hf.fetch _ _)) hne
  | polled hmode ht => exact absurd (ht ▸ hf.poll _ _) hne
  | ended hfatal ht => exact absurd (ht ▸ rfl) hne
  | ticked ht => exact .inr ⟨rfl, ht⟩
  | keyed k level ht => exact absurd (ht ▸ hf.key _ _ _) hne
  | shown ht => exact absurd (ht ▸ rfl) hne
  | acked ht => exact absurd (ht ▸ hf.ack _) hne

/-- The same where a tick keeps the part too. -/
theorem KeptByHost.ran {α : Type} {f : State → α} (hf : KeptByHost f)
    (htick : ∀ s, f (timerTick s) = f s) {tr : Transaction} {s t : State} (h : transact tr s = .next t)
    (hne : f t ≠ f s) :
    ∃ i, s.runs tr i ∧ exec i (s.setPc (s.pc + 2)) = .next t ∧ f t ≠ f (s.setPc (s.pc + 2)) :=
  (hf.cases h hne).resolve_right fun ⟨_, ht⟩ => hne (ht ▸ htick s)

theorem keptByHost_mem : KeptByHost State.mem where
  fetch _ _ := rfl
  report _ _ _ := rfl
  poll := awaitStep_mem
  key _ _ _ := rfl
  ack _ := rfl

theorem keptByHost_pix : KeptByHost State.pix where
  fetch _ _ := rfl
  report _ _ _ := rfl
  poll := awaitStep_pix
  key _ _ _ := rfl
  ack _ := rfl

theorem keptByHost_stack : KeptByHost State.stack where
  fetch _ _ := rfl
  report _ _ _ := rfl
  poll x s := (awaitStep_frame x s).stack (by simp)
  key _ _ _ := rfl
  ack _ := rfl

theorem keptByHost_i : KeptByHost State.i where
  fetch _ _ := rfl
  report _ _ _ := rfl
  poll x s := (awaitStep_frame x s).i (by simp)
  key _ _ _ := rfl
  ack _ := rfl

theorem keptByHost_dt : KeptByHost State.dt where
  fetch _ _ := rfl
  report _ _ _ := rfl
  poll x s := (awaitStep_frame x s).dt (by simp)
  key _ _ _ := rfl
  ack _ := rfl

theorem keptByHost_st : KeptByHost State.st where
  fetch _ _ := rfl
  report _ _ _ := rfl
  poll x s := (awaitStep_frame x s).st (by simp)
  key _ _ _ := rfl
  ack _ := rfl

/-- Settles O50: no transaction but an instruction writes memory, and of the instructions only the two with
memory in their footprint (R33). -/
theorem onlyStoresWriteMemory : Obligations.OnlyStoresWriteMemory := by
  intro tr s t h hne
  obtain ⟨i, hruns, hexec, hi⟩ := keptByHost_mem.ran timerTick_mem h hne
  obtain ⟨x, rfl | rfl⟩ := writer_of_mem (i := i) (by_contra fun hn => hi (exec_mem hexec hn))
  · exact ⟨x, .inl hruns⟩
  · exact ⟨x, .inr hruns⟩

/-- Settles O52: no transaction but an instruction writes the stack, and what CALL and RET leave there is
`exec_stack_cases`, after the fetch (R25). -/
theorem onlyCallAndRetTouchTheStack : Obligations.OnlyCallAndRetTouchTheStack := by
  intro tr s t h hne
  have htick (s : State) : (timerTick s).stack = s.stack := (timerTick_frame s).stack (by simp)
  obtain ⟨i, hruns, hexec, hi⟩ := keptByHost_stack.ran htick h hne
  obtain hs | ⟨nnn, rfl, -, hs⟩ | ⟨rfl, hs⟩ := exec_stack_cases hexec
  · exact absurd hs hi
  · exact .inl ⟨nnn, hruns, hs⟩
  · exact .inr ⟨hruns, hs⟩

/-- Settles O54: no transaction but an instruction writes I, and of the instructions only the three with I in
their footprint (R23). -/
theorem iHasThreeWriters : Obligations.IHasThreeWriters := by
  intro tr s t h hne
  have htick (s : State) : (timerTick s).i = s.i := (timerTick_frame s).i (by simp)
  obtain ⟨i, hruns, hexec, hi⟩ := keptByHost_i.ran htick h hne
  obtain ⟨nnn, rfl⟩ | ⟨x, rfl | rfl⟩ :=
    writer_of_i (i := i) (by_contra fun hn => hi ((exec_frame i _ t hexec).i hn))
  · exact .inl ⟨nnn, hruns⟩
  · exact .inr ⟨x, .inl hruns⟩
  · exact .inr ⟨x, .inr hruns⟩

/-! ### The timers -/

/-- R241: a tick that changes a timer takes one off. -/
theorem timerDown_of_ne {b : Byte} (h : timerDown b ≠ b) : (timerDown b).toNat + 1 = b.toNat := by
  have hb : b.toNat ≠ 0 := fun h0 => h (BitVec.eq_of_toNat_eq (by rw [timerDown_toNat, h0]))
  rw [timerDown_toNat]
  omega

/-- A tick of a timer that it changes: the session goes on, and the timer has one less. -/
theorem timerTick_takes_one {f : State → Byte}
    (hf : ∀ s : State, s.fatal = none → f (timerTick s) = timerDown (f s)) {s : State}
    (hne : f (timerTick s) ≠ f s) : (f (timerTick s)).toNat + 1 = (f s).toNat := by
  have hgoes : s.fatal = none := by_contra fun h => hne (congrArg f (timerTick_ended h))
  rw [hf s hgoes] at hne ⊢
  exact timerDown_of_ne hne

/-- Settles O56, timer by timer: a change comes from the one instruction with the timer in its footprint, or
from a tick, which takes one off (R26, R27, R241). -/
theorem timersHaveTheListedWriters : Obligations.TimersHaveTheListedWriters := by
  refine fun tr s t h => ⟨fun hne => ?delay, fun hne => ?sound⟩
  case delay =>
    obtain ⟨i, hruns, hexec, hi⟩ | ⟨rfl, rfl⟩ := keptByHost_dt.cases h hne
    · obtain ⟨x, rfl⟩ := writer_of_dt (i := i) (by_contra fun hn => hi ((exec_frame i _ t hexec).dt hn))
      exact .inr ⟨x, hruns⟩
    · exact .inl ⟨rfl, timerTick_takes_one (fun s hs => by rw [timerTick_running hs]; rfl) hne⟩
  case sound =>
    obtain ⟨i, hruns, hexec, hi⟩ | ⟨rfl, rfl⟩ := keptByHost_st.cases h hne
    · obtain ⟨x, rfl⟩ := writer_of_st (i := i) (by_contra fun hn => hi ((exec_frame i _ t hexec).st hn))
      exact .inr ⟨x, hruns⟩
    · exact .inl ⟨rfl, timerTick_takes_one (fun s hs => by rw [timerTick_running hs]; rfl) hne⟩

/-! ### The display -/

/-- A grid is the same when every pixel is. -/
theorem pix_eq_of_pixel_eq {s t : State} (h : ∀ x y, t.pixel x y = s.pixel x y) : t.pix = s.pix := by
  refine Vector.ext fun x hx => Vector.ext fun y hy => ?_
  simpa [State.pixel, column, row, Nat.mod_eq_of_lt hx, Nat.mod_eq_of_lt hy] using h x y

/-- An instruction leaves `changed` as it was, or is CLS or DRW and has set it (R61, R62). -/
theorem exec_changed_cases {i : Instr} {s t : State} (h : exec i s = .next t) :
    t.changed = s.changed ∨ (t.changed = true ∧ (i = .cls ∨ ∃ x y n, i = .drw x y n)) := by
  by_cases hi : .changed ∈ footParts i
  · obtain rfl | ⟨x, y, n, rfl⟩ := writer_of_changed hi
    · cases h
      exact .inr ⟨rfl, .inl rfl⟩
    · obtain ⟨u, hit, -, hset | hkept, rfl⟩ := exec_drw_next h
      · exact .inr ⟨hset, .inr ⟨x, y, n, rfl⟩⟩
      · exact .inl hkept
  · exact .inl ((exec_frame i s t h).changed hi)

/-- A transaction leaves `changed` as it was, sets it by CLS or DRW, or clears it as display_ack (D7). -/
theorem transact_changed_cases {tr : Transaction} {s t : State} (h : transact tr s = .next t) :
    t.changed = s.changed ∨
    (t.changed = true ∧ ∃ i, s.runs tr i ∧ (i = .cls ∨ ∃ x y n, i = .drw x y n)) ∨
    (tr = .displayAck ∧ t.changed = false) := by
  cases transact_did h with
  | @ran i hfetch hdecode hexec =>
    obtain hkept | ⟨hset, hi⟩ := exec_changed_cases hexec
    · exact .inl hkept
    · exact .inr (.inl ⟨hset, i, ⟨rfl, hfetch, hdecode⟩, hi⟩)
  | reported hfetch hdecode ht => exact .inl (ht ▸ rfl)
  | polled hmode ht => exact .inl (ht ▸ (awaitStep_frame _ s).changed (by simp))
  | ended hfatal ht => exact .inl (ht ▸ rfl)
  | ticked ht => exact .inl (ht ▸ (timerTick_frame s).changed (by simp))
  | keyed k level ht => exact .inl (ht ▸ rfl)
  | shown ht => exact .inl (ht ▸ rfl)
  | acked ht => exact .inr (.inr ⟨rfl, ht ▸ rfl⟩)

/-- Settles O51: no transaction but an instruction writes the pixels, of the instructions only CLS and DRW,
and the ways to change `changed` are those of `transact_changed_cases` (R31, D7). -/
theorem onlyClsAndDrwWriteTheDisplay : Obligations.OnlyClsAndDrwWriteTheDisplay := by
  intro tr s t h
  have hrun {i : Instr} (hruns : s.runs tr i) (hi : i = .cls ∨ ∃ x y n, i = .drw x y n) :
      s.runs tr .cls ∨ ∃ x y n, s.runs tr (.drw x y n) := by
    obtain rfl | ⟨x, y, n, rfl⟩ := hi
    · exact .inl hruns
    · exact .inr ⟨x, y, n, hruns⟩
  constructor
  case left =>
    rintro (hne | ⟨hclear, hset⟩)
    · obtain ⟨i, hruns, hexec, hi⟩ := keptByHost_pix.ran timerTick_pix h hne
      refine hrun hruns (writer_of_pix (by_contra fun hn => hi ?_))
      exact pix_eq_of_pixel_eq ((exec_frame i _ t hexec).pix hn)
    · obtain hkept | ⟨-, i, hruns, hi⟩ | ⟨-, hacked⟩ := transact_changed_cases h
      · rw [hkept, hclear] at hset
        cases hset
      · exact hrun hruns hi
      · rw [hacked] at hset
        cases hset
  case right =>
    intro hset hclear
    obtain hkept | ⟨hset', -⟩ | ⟨htr, -⟩ := transact_changed_cases h
    · rw [hkept, hset] at hclear
      cases hclear
    · rw [hset'] at hclear
      cases hclear
    · exact htr

/-! ### V registers and the wait for a key -/

/-- R108: a poll finds no key and does nothing, or takes the lowest one and ends the wait. -/
theorem awaitStep_cases (x : Nibble) (s : State) :
    (s.keyScan = none ∧ awaitStep x s = s) ∨
    ∃ k, s.keyScan = some k ∧ awaitStep x s = (s.setV x (k.setWidth 8)).setMode .normal := by
  unfold awaitStep
  split
  next hk => exact .inl ⟨hk, rfl⟩
  next k hk => exact .inr ⟨k, hk, rfl⟩

/-- Settles O53: a V register changes by an instruction with it in its footprint, which is the table of R21,
or by the end of the wait for it (R108). -/
theorem vRegistersHaveTheListedWriters : Obligations.VRegistersHaveTheListedWriters := by
  intro tr s t j h hne
  cases transact_did h with
  | @ran i hfetch hdecode hexec =>
    refine .inl ⟨i, ⟨rfl, hfetch, hdecode⟩, writesV_of_mem_footV (by_contra fun hn => hne ?_)⟩
    exact (exec_frame i _ t hexec).v j hn
  | reported hfetch hdecode ht => exact absurd (ht ▸ rfl) hne
  | @polled x hmode ht =>
    obtain ⟨-, hs⟩ | ⟨k, -, hs⟩ := awaitStep_cases x s
    · exact absurd (by rw [ht, hs]) hne
    · have hj : j = x := by_contra fun hn => hne (by rw [ht, hs, setMode_getV, getV_setV_of_ne s _ hn])
      exact .inr ⟨rfl, hj ▸ hmode, by rw [ht, hs, setMode_mode]⟩
  | ended hfatal ht => exact absurd (ht ▸ rfl) hne
  | ticked ht => exact absurd (ht ▸ (timerTick_frame s).v j (by simp)) hne
  | keyed k level ht => exact absurd (ht ▸ rfl) hne
  | shown ht => exact absurd (ht ▸ rfl) hne
  | acked ht => exact absurd (ht ▸ rfl) hne

/-- An instruction leaves the mode as it was, or is LD Vx, K that found no key (R215). -/
theorem exec_mode_cases {i : Instr} {s t : State} (h : exec i s = .next t) :
    t.mode = s.mode ∨ ∃ x, i = .ldVxK x ∧ s.keyScan = none ∧ t.mode = .awaitKey x := by
  by_cases hi : .mode ∈ footParts i
  · obtain ⟨x, rfl⟩ := writer_of_mode hi
    obtain ⟨k, -, rfl⟩ | ⟨hk, rfl⟩ := exec_ldVxK_next h
    · exact .inl rfl
    · exact .inr ⟨x, rfl, hk, rfl⟩
  · exact .inl ((exec_frame i s t h).mode hi)

/-- A transaction leaves the mode as it was, enters the wait by LD Vx, K with no key pressed, or leaves it by
a poll that finds a key (R28, D22). -/
theorem transact_mode_cases {tr : Transaction} {s t : State} (h : transact tr s = .next t) :
    t.mode = s.mode ∨
    (∃ x, s.runs tr (.ldVxK x) ∧ s.keyScan = none ∧ t.mode = .awaitKey x) ∨
    (tr = .cpuStep ∧ t.mode = .normal ∧ ∃ k, s.keyScan = some k) := by
  cases transact_did h with
  | @ran i hfetch hdecode hexec =>
    obtain hkept | ⟨x, rfl, hk, ht⟩ := exec_mode_cases hexec
    · exact .inl hkept
    · exact .inr (.inl ⟨x, ⟨rfl, hfetch, hdecode⟩, hk, ht⟩)
  | reported hfetch hdecode ht => exact .inl (ht ▸ rfl)
  | @polled x hmode ht =>
    obtain ⟨-, hs⟩ | ⟨k, hk, hs⟩ := awaitStep_cases x s
    · exact .inl (by rw [ht, hs])
    · exact .inr (.inr ⟨rfl, by rw [ht, hs, setMode_mode], k, hk⟩)
  | ended hfatal ht => exact .inl (ht ▸ rfl)
  | ticked ht => exact .inl (ht ▸ (timerTick_frame s).mode (by simp))
  | keyed k level ht => exact .inl (ht ▸ rfl)
  | shown ht => exact .inl (ht ▸ rfl)
  | acked ht => exact .inl (ht ▸ rfl)

/-- Settles O58, by the three ways of a transaction with the mode; an instruction that runs was fetched in
normal mode, so it does not end a wait (R28, R108, R215). -/
theorem onlyTheKeyInstructionWaits : Obligations.OnlyTheKeyInstructionWaits := by
  refine fun tr s t h => ⟨fun x hnormal hwait => ?enter, fun x hwait hleft => ?leave⟩
  case enter =>
    obtain hkept | ⟨x', hruns, hk, ht⟩ | ⟨-, ht, -⟩ := transact_mode_cases h
    · cases hnormal.symm.trans (hkept.symm.trans hwait)
    · cases ht.symm.trans hwait
      exact ⟨hruns, (keyScan_none s).mp hk⟩
    · cases ht.symm.trans hwait
  case leave =>
    obtain hkept | ⟨x', hruns, -, -⟩ | ⟨htr, ht, k, hk⟩ := transact_mode_cases h
    · exact absurd (hkept.trans hwait) hleft
    · obtain ⟨-, ⟨-, hnormal, -⟩, -⟩ := hruns
      cases hnormal.symm.trans hwait
    · exact ⟨htr, ht, k, List.find?_some (p := s.keyPressed) hk⟩

/-! ### PC, the keys and what nothing writes -/

theorem transact_of_runs {tr : Transaction} {s : State} {i : Instr} (h : s.runs tr i) :
    transact tr s = exec i (s.setPc (s.pc + 2)) := by
  obtain ⟨rfl, hfetch, hdecode⟩ := h
  rw [transact, cpuStep_fetches hfetch, execWord, hdecode]

/-- Settles O55: an instruction that is no writer of PC keeps the post-fetch value, a skip keeps it or adds 2,
and no other transaction has PC in its frame (R106, R110). -/
theorem pcHasTheListedWriters : Obligations.PcHasTheListedWriters := by
  refine fun tr s t h => ⟨fun i hruns hi => ?kept, fun i x y kk hruns hi => ?skip, fun htr => ?host⟩
  case kept => exact exec_pc hi ((transact_of_runs hruns).symm.trans h)
  case skip =>
    obtain ⟨c, rfl⟩ := exec_skip_next hi ((transact_of_runs hruns).symm.trans h)
    have hfour : s.pc + 2 + 2 = s.pc + 4 := by rw [BitVec.add_assoc]; rfl
    exact hfour ▸ skipIf_pc (s.setPc (s.pc + 2)) c
  case host =>
    cases transact_did h with
    | ran | reported | polled | ended => exact absurd rfl htr
    | ticked ht => exact ht ▸ (timerTick_frame s).pc (by simp)
    | keyed k level ht => exact ht ▸ rfl
    | shown ht => exact ht ▸ rfl
    | acked ht => exact ht ▸ rfl

/-- Every transaction but key_write keeps the keys, STACK_DEPTH and the fatal record; key_write keeps the last
two (R10, R32, R34). -/
theorem transact_keeps {tr : Transaction} {s t : State} (h : transact tr s = .next t) :
    ((∃ k l, tr = .keyWrite k l) ∨ t.keys = s.keys) ∧ t.stackDepth = s.stackDepth ∧ t.fatal = s.fatal := by
  cases transact_did h with
  | @ran i hfetch hdecode hexec =>
    have hf := exec_frame i _ t hexec
    exact ⟨.inr hf.keys, hf.stackDepth, hf.fatal⟩
  | reported hfetch hdecode ht => exact ht ▸ ⟨.inr rfl, rfl, rfl⟩
  | @polled x hmode ht =>
    have hf := awaitStep_frame x s
    exact ht ▸ ⟨.inr hf.keys, hf.stackDepth, hf.fatal⟩
  | ended hfatal ht => exact ht ▸ ⟨.inr rfl, rfl, rfl⟩
  | ticked ht =>
    have hf := timerTick_frame s
    exact ht ▸ ⟨.inr hf.keys, hf.stackDepth, hf.fatal⟩
  | keyed k level ht => exact ⟨.inl ⟨k, level, rfl⟩, ht ▸ rfl, ht ▸ rfl⟩
  | shown ht => exact ht ▸ ⟨.inr rfl, rfl, rfl⟩
  | acked ht => exact ht ▸ ⟨.inr rfl, rfl, rfl⟩

/-- Settles O57, from what every transaction keeps (R10, R32, R34). -/
theorem onlyTheHostWritesTheKeys : Obligations.OnlyTheHostWritesTheKeys := by
  intro tr s t h
  obtain ⟨hkeys, hrest⟩ := transact_keeps h
  exact ⟨fun hne => hkeys.resolve_right hne, hrest⟩

end Sys2Proof.Machine
end

section
/-! PROOFS. The cycle (40_cycle.md) and its stops (60_exceptions.md section 1): what a `cpu_step` does when it
fetches, polls or cannot fetch, why a step faults, and what a session keeps once it has ended. -/

namespace Sys2Proof.Machine

/-! ### Fetch and poll -/

/-- Settles O6: the step is the `cpu_step` of the host's list or of its end, and a `cpu_step` that fetches a
defined word is its instruction after the fetch (R100, R104). -/
theorem stepRunsTheDecodedInstruction : Obligations.StepRunsTheDecodedInstruction := by
  intro s rest i hnext hfetch hdecode
  have hruns : ({ s with host := rest } : State).runs .cpuStep i := ⟨rfl, hfetch, hdecode⟩
  exact (step_of_cpuStepNext hnext).trans (transact_of_runs hruns)

/-- A running CPU in normal mode whose fetch faults raises that fault (R102). -/
theorem cpuStep_fetch_error {s : State} {f : Fault} (hfatal : s.fatal = none) (hmode : s.mode = .normal)
    (hfetch : s.fetch = .error f) : cpuStep s = .fault f := by
  simp only [cpuStep, hfatal, hmode, hfetch, raiseFatal]

/-- Settles O8: the first byte of the word, or at 0xFFF the second, lies outside memory (R53, R102). -/
theorem fetchOutsideMemoryFaults : Obligations.FetchOutsideMemoryFaults := by
  refine fun s hfatal hmode => ⟨fun hpc => ?outside, fun hpc => ?last⟩
  case outside =>
    exact cpuStep_fetch_error hfatal hmode (by simp only [State.fetch, memRead_error s hpc])
  case last =>
    have hhi := memRead_ok s (a := s.pc.toNat) (by rw [hpc]; decide)
    have hlo := memRead_error s (a := s.pc.toNat + 1) (by rw [hpc])
    rw [hpc] at hhi hlo
    exact cpuStep_fetch_error hfatal hmode (by simp only [State.fetch, hpc, hhi, hlo])

theorem cpuStep_polls {s : State} {x : Nibble} (hfatal : s.fatal = none) (hmode : s.mode = .awaitKey x) :
    cpuStep s = .next (awaitStep x s) := by
  simp only [cpuStep, hfatal, hmode]

/-- A key keeps its number in a register. -/
@[simp] theorem keyByte_toNat (k : Nibble) : (k.setWidth 8 : Byte).toNat = k.toNat :=
  BitVec.toNat_setWidth_of_le (by decide)

/-- Settles O9, by what the keyboard scan finds (R67, R108). -/
theorem awaitingCpuPollsTheKeyboard : Obligations.AwaitingCpuPollsTheKeyboard := by
  refine fun s x hfatal hmode => ⟨fun hnone => ?none, fun k hk => ?some⟩
  case none =>
    have hpoll : awaitStep x s = s := by rw [awaitStep, (keyScan_none s).mpr hnone]
    rw [cpuStep_polls hfatal hmode, hpoll]
  case some =>
    have hpoll : awaitStep x s = (s.setV x (k.setWidth 8)).setMode .normal := by
      rw [awaitStep, (keyScan_some s k).mpr hk]
    refine ⟨_, cpuStep_polls hfatal hmode, ?_, ?_, awaitStep_frame x s⟩
    · rw [hpoll, setMode_getV, getV_setV_same, keyByte_toNat]
    · rw [hpoll, setMode_mode]

/-! ### Reports -/

/-- An instruction emits no report, or is a whole report of its own word (R120, R121). -/
theorem exec_reports_cases {i : Instr} {s t : State} (h : exec i s = .next t) :
    t.reports = s.reports ∨ ∃ k, t = s.report k (encode i) := by
  by_cases hi : .reports ∈ footParts i
  · obtain rfl | ⟨nnn, rfl⟩ := writer_of_reports hi
    · obtain ⟨-, ht⟩ | ⟨b, rest, -, ht⟩ := exec_ret_next h
      · exact .inr ⟨_, ht⟩
      · exact .inl (ht ▸ rfl)
    · exact .inr ⟨_, (Host.Outcome.next.inj h).symm⟩
  · exact .inl ((exec_frame i s t h).reports hi)

theorem encode_of_decode {w : Word} {i : Instr} (h : decode w = .ok i) : encode i = w := by
  obtain ⟨-, hi⟩ : RightAnswer w (.ok i) := h ▸ decode_right w
  exact hi

/-- A `cpu_step` emits no report, or is the fetch and then one report of the fetched word (R105, R120, R121). -/
theorem cpuStep_reports_cases {s t : State} (h : cpuStep s = .next t) :
    t.reports = s.reports ∨ ∃ k, t = (s.setPc (s.pc + 2)).report k s.wordAtPc := by
  cases transact_did (tr := .cpuStep) h with
  | ran hfetch hdecode hexec => exact encode_of_decode hdecode ▸ exec_reports_cases hexec
  | reported hfetch hdecode ht => exact .inr ⟨_, ht⟩
  | polled hmode ht => exact .inl (ht ▸ (awaitStep_frame _ s).reports (by simp))
  | ended hfatal ht => exact .inl (ht ▸ rfl)

/-- Settles O11: a step with other reports is the fetch and one report of the fetched word (R233). -/
theorem reportingStepDoesNothingElse : Obligations.ReportingStepDoesNothingElse := by
  intro s t h hne
  obtain ⟨k, rfl⟩ := (cpuStep_reports_cases h).resolve_left hne
  exact ⟨⟨_, fetched_report_reports s s.pc k _, rfl, rfl⟩, rfl, setPc_report_frame s _ k _⟩

/-! ### Fatal faults -/

/-- The fatal faults of R234 that a step of `s` may end in, each for the reason of its kind. -/
inductive Stops (s : State) : Fault → Prop where
  | memory {c : Nat} (hc : Config.memSize ≤ c) : Stops s (.memoryOutOfBounds c)
  | key {x : Nibble} (hruns : s.runs .cpuStep (.skp x) ∨ s.runs .cpuStep (.sknp x))
      (hk : 16 ≤ (s.getV x).toNat) : Stops s (.keyIndexOutOfRange (s.getV x))
  | stack {nnn : Addr} (hruns : s.runs .cpuStep (.call nnn))
      (hfull : s.stackDepth = some s.stack.length) : Stops s (.stackOverflow s.pc)

/-- An answer that is a next state or a fault for its reason. -/
def Justified (s : State) (a : Answer) : Prop := (∃ t, a = .next t) ∨ ∃ f, a = .fault f ∧ Stops s f

/-- A fetched instruction stops for the reason that it itself gives (R125, R216). -/
theorem justified_of_runs {s : State} {i : Instr} (hruns : s.runs .cpuStep i) :
    Justified s (exec i (s.setPc (s.pc + 2))) := by
  obtain hnext | ⟨c, hc, hf⟩ | ⟨x, hi, hk, hf⟩ | ⟨hfull, ⟨nnn, hi⟩, hf⟩ :=
    exec_answers i (s.setPc (s.pc + 2))
  · exact .inl hnext
  · exact .inr ⟨_, hf, .memory hc⟩
  · refine .inr ⟨_, hf, .key ?_ hk⟩
    obtain rfl | rfl := hi
    · exact .inl hruns
    · exact .inr hruns
  · subst hi
    rw [setPc_add_two_instrAddr] at hf
    exact .inr ⟨_, hf, .stack hruns ((stackFull_iff _).mp hfull)⟩

theorem cpuStep_justified (s : State) : Justified s (cpuStep s) := by
  cases hfatal : s.fatal with
  | some r => exact .inl ⟨s, by simp only [cpuStep, hfatal]⟩
  | none =>
    cases hmode : s.mode with
    | awaitKey x => exact .inl ⟨_, cpuStep_polls hfatal hmode⟩
    | normal =>
      obtain ⟨hpc, -⟩ | ⟨c, hc, hfetch⟩ := fetch_cases s
      · have hs : s.fetches := ⟨hfatal, hmode, hpc⟩
        cases hdecode : decode s.wordAtPc with
        | ok i =>
          have hruns : s.runs .cpuStep i := ⟨rfl, hs, hdecode⟩
          have hexec : cpuStep s = exec i (s.setPc (s.pc + 2)) := transact_of_runs hruns
          exact hexec ▸ justified_of_runs hruns
        | error e => exact .inl ⟨_, cpuStep_undefined hs hdecode⟩
      · exact .inr ⟨_, cpuStep_fetch_error hfatal hmode hfetch, .memory hc⟩

theorem transact_justified (tr : Transaction) (s : State) : Justified s (transact tr s) := by
  cases tr
  case cpuStep => exact cpuStep_justified s
  all_goals exact .inl ⟨_, rfl⟩

/-- The reasons speak of no host list. -/
theorem Stops.of_host {s : State} {rest : List Transaction} {f : Fault}
    (h : Stops { s with host := rest } f) : Stops s f := by
  cases h with
  | memory hc => exact .memory hc
  | @key x hruns hk => exact .key (x := x) hruns hk
  | stack hruns hfull => exact .stack hruns hfull

theorem step_justified (s : State) : Justified s (step s) := by
  obtain ⟨tr, rest, htr⟩ := step_eq_transact s
  rw [htr]
  obtain hnext | ⟨f, hf, hstops⟩ := transact_justified tr { s with host := rest }
  · exact .inl hnext
  · exact .inr ⟨f, hf, hstops.of_host⟩

theorem stops_of_step_fault {s : State} {f : Fault} (h : step s = .fault f) : Stops s f := by
  obtain ⟨t, ht⟩ | ⟨f', hf, hstops⟩ := step_justified s
  · cases h.symm.trans ht
  · cases h.symm.trans hf
    exact hstops

/-- Settles O49: every step answers a next state or a fault for its reason, and the kind of the fault says
which reason (R234). -/
theorem stepsStopOnlyForTheSpecsReasons : Obligations.StepsStopOnlyForTheSpecsReasons := by
  refine fun s => ⟨fun r h => ?refused, fun a h => ?memory, fun k h => ?key, fun a h => ?stack⟩
  case refused =>
    obtain ⟨t, ht⟩ | ⟨f, hf, -⟩ := step_justified s
    · cases h.symm.trans ht
    · cases h.symm.trans hf
  case memory =>
    cases stops_of_step_fault h with
    | memory hc => exact hc
  case key =>
    cases stops_of_step_fault h with
    | @key x hruns hk => exact ⟨hk, x, rfl, hruns⟩
  case stack =>
    cases stops_of_step_fault h with
    | @stack nnn hruns hfull => exact ⟨rfl, hfull, nnn, hruns⟩

/-! ### After a fatal fault -/

/-- R235: once the session has ended, a `cpu_step` has no effect. -/
theorem cpuStep_ended {s : State} {r : Fault} (h : s.fatal = some r) : cpuStep s = .next s := by
  simp only [cpuStep, h]

/-- Once the session has ended nothing faults any more. -/
theorem transact_ended_ne_fault {tr : Transaction} {s : State} {r f : Fault} (h : s.fatal = some r) :
    transact tr s ≠ .fault f := by
  cases tr
  case cpuStep => rw [transact, cpuStep_ended h]; exact nofun
  all_goals exact nofun

/-- Settles O10: a fault writes its record, an ended session answers its own state to `cpu_step`, tick and
read, and no transaction that answers a next state writes the record (R235, D24). -/
theorem fatalFaultEndsTheSession : Obligations.FatalFaultEndsTheSession := by
  refine ⟨fun tr s t r h hsession => ?record, fun s r h => ?still, fun tr s t r h hsession => ?kept⟩
  case record =>
    cases hsession with
    | goesOn hnext => cases h.symm.trans hnext
    | ends hfault hfatal =>
      cases h.symm.trans hfault
      exact hfatal
  case still => exact ⟨cpuStep_ended h, timerTick_ended (h ▸ Option.some_ne_none r), rfl⟩
  case kept =>
    cases hsession with
    | goesOn hnext =>
      obtain ⟨-, -, hfatal⟩ := transact_keeps hnext
      exact hfatal.trans h
    | ends hfault => exact absurd hfault (transact_ended_ne_fault h)

end Sys2Proof.Machine
end

section
/-! PROOFS. What instructions cannot observe (10_state.md sections 4 and 6): the operations over several bytes
read and write the same parts in every state, and so no instruction looks at ST, `changed`, the reports or the
host's list, and only three at the keys. -/

namespace Sys2Proof.Machine

/-! ### The operations over several bytes, as functions of the parts they read -/

/-- Memory replaced whole: what storing bytes does. -/
def State.setMem (s : State) (m : Memory) : State := { s with mem := m }

/-- The V registers replaced whole: what loading registers does. -/
def State.setRegs (s : State) (v : Vector Byte 16) : State := { s with v := v }

/-- The display replaced whole: what drawing does. -/
def State.setDisplay (s : State) (p : Grid) (c : Bool) : State := { s with pix := p, changed := c }

/-- Storing bytes reads memory and writes memory (R58). -/
theorem storeBytes_uniform (m : Memory) (a : Nat) (bs : List Byte) :
    ∃ r : Except Fault Memory, ∀ s : State, s.mem = m → s.storeBytes a bs = r.map s.setMem := by
  induction bs generalizing m a with
  | nil => exact ⟨.ok m, fun s hs => by subst hs; rfl⟩
  | cons b bs ih =>
    by_cases ha : a < Config.memSize
    · obtain ⟨r, hr⟩ := ih (m.write a b) (a + 1)
      refine ⟨r, fun s hs => ?_⟩
      subst hs
      simp only [State.storeBytes, memWrite_ok s b ha]
      exact hr _ rfl
    · refine ⟨.error (.memoryOutOfBounds a), fun s _ => ?_⟩
      simp only [State.storeBytes, memWrite_error s b (Nat.not_lt.mp ha)]
      rfl

/-- Loading registers reads memory and writes V registers (R185). -/
theorem loadFrom_uniform (m : Memory) (v : Vector Byte 16) (a k n : Nat) :
    ∃ r : Except Fault (Vector Byte 16), ∀ s : State, s.mem = m → s.v = v →
      s.loadFrom a k n = r.map s.setRegs := by
  induction n generalizing v k with
  | zero => exact ⟨.ok v, fun s _ hv => by subst hv; rfl⟩
  | succ n ih =>
    by_cases ha : a + k < Config.memSize
    · obtain ⟨r, hr⟩ := ih (v.set (BitVec.ofNat 4 k).toNat (m.read (a + k)) (BitVec.isLt _)) (k + 1)
      refine ⟨r, fun s hm hv => ?_⟩
      subst hm hv
      simp only [State.loadFrom, memRead_ok s ha]
      exact hr _ rfl rfl
    · refine ⟨.error (.memoryOutOfBounds (a + k)), fun s _ _ => ?_⟩
      simp only [State.loadFrom, memRead_error s (Nat.not_lt.mp ha)]
      rfl

/-- XORing bits reads and writes the pixels, and sets `changed` where there is a bit (R62, R63). -/
theorem xorBits_uniform (p : Grid) (x y : Nat) (bs : List Bool) :
    ∃ (p' : Grid) (hit : Bool), ∀ s : State, s.pix = p →
      s.xorBits x y bs = (s.setDisplay p' (s.changed || !bs.isEmpty), hit) := by
  induction bs generalizing p x with
  | nil => exact ⟨p, false, fun s hs => by subst hs; simp [State.xorBits, State.setDisplay]⟩
  | cons b bs ih =>
    obtain ⟨p', hit, hrest⟩ := ih (Grid.write p (column x) (row y) (p[column x][row y] ^^ b)) (x + 1)
    refine ⟨p', (p[column x][row y] && b) || hit, fun s hs => ?_⟩
    subst hs
    simp only [State.xorBits, hrest (s.xorPixel x y b).1 rfl]
    simp [State.setDisplay, State.xorPixel, State.pixel]

/-- Drawing rows reads memory and the pixels, writes the pixels, and sets `changed` where there is a row
(R201). -/
theorem drawRows_uniform (m : Memory) (p : Grid) (x y a n : Nat) :
    ∃ r : Except Fault (Grid × Bool), ∀ s : State, s.mem = m → s.pix = p →
      s.drawRows x y a n = r.map fun g => (s.setDisplay g.1 (s.changed || decide (0 < n)), g.2) := by
  induction n generalizing p y a with
  | zero =>
    exact ⟨.ok (p, false), fun s _ hp => by subst hp; simp [State.drawRows, Except.map, State.setDisplay]⟩
  | succ n ih =>
    by_cases ha : a < Config.memSize
    · obtain ⟨p', hit, hfirst⟩ := xorBits_uniform p x y (spriteBits (m.read a))
      obtain ⟨r, hrest⟩ := ih p' (y + 1) (a + 1)
      refine ⟨r.map fun g => (g.1, hit || g.2), fun s hm hp => ?_⟩
      subst hm
      simp only [State.drawRows, memRead_ok s ha, State.xorRow, hfirst s hp, hrest (s.setDisplay p' _) rfl rfl]
      cases r <;> simp [Except.map, State.setDisplay, spriteBits]
    · refine ⟨.error (.memoryOutOfBounds a), fun s _ _ => ?_⟩
      simp only [State.drawRows, memRead_error s (Nat.not_lt.mp ha)]
      rfl

/-! ### The outputs -/

@[simp] theorem hide_hide (s : State) : s.hide.hide = s.hide := rfl
@[simp] theorem hide_getV (s : State) (j : Nibble) : s.hide.getV j = s.getV j := rfl
@[simp] theorem hide_firstV (s : State) (x : Nibble) : s.hide.firstV x = s.firstV x := rfl
@[simp] theorem hide_base (s : State) : s.hide.base = s.base := rfl
@[simp] theorem hide_stack (s : State) : s.hide.stack = s.stack := rfl
@[simp] theorem hide_keyPressed (s : State) (k : Nibble) : s.hide.keyPressed k = s.keyPressed k := rfl
@[simp] theorem hide_keyScan (s : State) : s.hide.keyScan = s.keyScan := rfl

@[simp] theorem hide_skipIf (s : State) (c : Bool) : (s.skipIf c).hide = s.hide.skipIf c := by
  cases c <;> rfl

theorem skipOnKey_hide (k : Byte) (level : Bool) (s : State) :
    mapNext State.hide (skipOnKey k level s) = mapNext State.hide (skipOnKey k level s.hide) := by
  by_cases hk : k.toNat < 16 <;> simp [skipOnKey, hk, mapNext, raiseFatal]

/-- Each instruction on a state without the outputs does what it does with them: it writes the same parts from
the same parts, so the two states that are answered differ in the outputs at most. -/
theorem exec_hide (i : Instr) (s : State) :
    mapNext State.hide (exec i s) = mapNext State.hide (exec i s.hide) := by
  cases i
  case ret =>
    simp only [exec, execRet, hide_stack]
    cases s.stack <;> rfl
  case call =>
    cases hfull : s.stackFull with
    | true => rw [exec_call_of_full hfull, exec_call_of_full (s := s.hide) hfull]; rfl
    | false => rw [exec_call_of_room hfull, exec_call_of_room (s := s.hide) hfull]; rfl
  case seImm | sneImm | seReg | sneReg =>
    simp [exec, execSeImm, execSneImm, execSeReg, execSneReg, mapNext]
  case skp | sknp => exact skipOnKey_hide _ _ s
  case ldVxK =>
    simp only [exec, execLdVxK, hide_keyScan]
    cases s.keyScan <;> rfl
  case drw x y n =>
    obtain ⟨r, hr⟩ := drawRows_uniform s.mem s.pix (s.getV x).toNat (s.getV y).toNat s.base n.toNat
    simp only [exec, execDrw, hide_getV, hide_base, hr s rfl rfl, hr s.hide rfl rfl]
    cases r <;> rfl
  case bcd x =>
    obtain ⟨r, hr⟩ := storeBytes_uniform s.mem s.base (decimalDigits (s.getV x))
    simp only [exec, execBcd, hide_getV, hide_base, hr s rfl, hr s.hide rfl]
    cases r <;> rfl
  case storeRegs x =>
    obtain ⟨r, hr⟩ := storeBytes_uniform s.mem s.base (s.firstV x)
    simp only [exec, execStoreRegs, hide_firstV, hide_base, hr s rfl, hr s.hide rfl]
    cases r <;> rfl
  case loadRegs x =>
    obtain ⟨r, hr⟩ := loadFrom_uniform s.mem s.v s.base 0 (x.toNat + 1)
    simp only [exec, execLoadRegs, hide_base, hr s rfl rfl, hr s.hide rfl rfl]
    cases r <;> rfl
  all_goals rfl

theorem awaitStep_hide (x : Nibble) (s : State) : (awaitStep x s).hide = (awaitStep x s.hide).hide := by
  simp only [awaitStep, hide_keyScan]
  cases s.keyScan <;> rfl

theorem execWord_hide (w : Word) (s : State) :
    mapNext State.hide (execWord w s) = mapNext State.hide (execWord w s.hide) := by
  unfold execWord
  cases decode w with
  | ok i => exact exec_hide i s
  | error e => rfl

/-- A `cpu_step` reads the outputs in none of its phases (R100). -/
theorem cpuStep_hide (s : State) : mapNext State.hide (cpuStep s) = mapNext State.hide (cpuStep s.hide) := by
  have hfatal : s.hide.fatal = s.fatal := rfl
  have hmode : s.hide.mode = s.mode := rfl
  have hfetch : s.hide.fetch = s.fetch := rfl
  simp only [cpuStep, hfatal, hmode, hfetch]
  cases s.fatal with
  | some r => rfl
  | none =>
    cases s.mode with
    | awaitKey x => exact congrArg Host.Outcome.next (awaitStep_hide x s)
    | normal =>
      cases s.fetch with
      | error f => rfl
      | ok w => exact execWord_hide w (s.setPc (s.pc + 2))

/-- Settles O59: a `cpu_step` does the same to the outputs-free state that the two share (R27, R31, R231). -/
theorem outputsAreInvisibleToTheCpu : Obligations.OutputsAreInvisibleToTheCpu := by
  intro s s' h
  rw [cpuStep_hide s, h, ← cpuStep_hide s']

/-! ### The keyboard -/

/-- The keyboard replaced whole. -/
def State.setKeys (ks : Vector Bool 16) (s : State) : State := { s with keys := ks }

@[simp] theorem setKeys_getV (ks : Vector Bool 16) (s : State) (j : Nibble) :
    (s.setKeys ks).getV j = s.getV j := rfl
@[simp] theorem setKeys_firstV (ks : Vector Bool 16) (s : State) (x : Nibble) :
    (s.setKeys ks).firstV x = s.firstV x := rfl
@[simp] theorem setKeys_base (ks : Vector Bool 16) (s : State) : (s.setKeys ks).base = s.base := rfl
@[simp] theorem setKeys_stack (ks : Vector Bool 16) (s : State) : (s.setKeys ks).stack = s.stack := rfl

@[simp] theorem setKeys_skipIf (ks : Vector Bool 16) (s : State) (c : Bool) :
    (s.skipIf c).setKeys ks = (s.setKeys ks).skipIf c := by
  cases c <;> rfl

/-- An instruction other than SKP, SKNP and LD Vx, K commutes with a change of the keyboard (R32). -/
theorem exec_setKeys {i : Instr} (hi : i.readsKeys = false) (ks : Vector Bool 16) (s : State) :
    exec i (s.setKeys ks) = mapNext (State.setKeys ks) (exec i s) := by
  cases i
  case skp | sknp | ldVxK => cases hi
  case ret =>
    simp only [exec, execRet, setKeys_stack]
    cases s.stack <;> rfl
  case call =>
    cases hfull : s.stackFull with
    | true => rw [exec_call_of_full hfull, exec_call_of_full (s := s.setKeys ks) hfull]; rfl
    | false => rw [exec_call_of_room hfull, exec_call_of_room (s := s.setKeys ks) hfull]; rfl
  case seImm | sneImm | seReg | sneReg =>
    simp [exec, execSeImm, execSneImm, execSeReg, execSneReg, mapNext]
  case drw x y n =>
    obtain ⟨r, hr⟩ := drawRows_uniform s.mem s.pix (s.getV x).toNat (s.getV y).toNat s.base n.toNat
    simp only [exec, execDrw, setKeys_getV, setKeys_base, hr s rfl rfl, hr (s.setKeys ks) rfl rfl]
    cases r <;> rfl
  case bcd x =>
    obtain ⟨r, hr⟩ := storeBytes_uniform s.mem s.base (decimalDigits (s.getV x))
    simp only [exec, execBcd, setKeys_getV, setKeys_base, hr s rfl, hr (s.setKeys ks) rfl]
    cases r <;> rfl
  case storeRegs x =>
    obtain ⟨r, hr⟩ := storeBytes_uniform s.mem s.base (s.firstV x)
    simp only [exec, execStoreRegs, setKeys_firstV, setKeys_base, hr s rfl, hr (s.setKeys ks) rfl]
    cases r <;> rfl
  case loadRegs x =>
    obtain ⟨r, hr⟩ := loadFrom_uniform s.mem s.v s.base 0 (x.toNat + 1)
    simp only [exec, execLoadRegs, setKeys_base, hr s rfl rfl, hr (s.setKeys ks) rfl rfl]
    cases r <;> rfl
  all_goals rfl

/-- Settles O60, by the instructions: those that read no keys commute with any change of them (R32). -/
theorem onlyKeyInstructionsReadTheKeys : Obligations.OnlyKeyInstructionsReadTheKeys :=
  fun _ s ks hi => exec_setKeys hi ks s

end Sys2Proof.Machine
end

section
/-! PROOFS. JP V0 and CALL (41_flow.md R123 to R125), and a RET after a CALL. -/

namespace Sys2Proof.Machine

/-- R124: a byte and a 12-bit address add up to less than 2^16. -/
theorem offsetTarget_toNat (s : State) (nnn : Addr) :
    (s.offsetTarget nnn).toNat = (s.getV 0).toNat + nnn.toNat := by
  have hbyte := (s.getV 0).isLt
  have haddr := nnn.isLt
  rw [State.offsetTarget, BitVec.toNat_add, wordV_toNat, addrOperand_toNat]
  exact Nat.mod_eq_of_lt (by omega)

/-- Settles O15: JP V0 is one write of PC, of a sum that does not wrap (R124). -/
theorem jpV0AddsTheOffset : Obligations.JpV0AddsTheOffset := by
  intro nnn
  refine ⟨decode_wordAddr_eleven nnn, fun s => ?_⟩
  have hexec : exec (.jpV0 nnn) s = .next (s.setPc (s.offsetTarget nnn)) := rfl
  exact ⟨_, hexec, offsetTarget_toNat s nnn, setPc_frame s _⟩

/-- R123: a push and a jump touch PC and the stack. -/
theorem push_setPc_frame (s : State) (a b : Word) :
    ChangesOnly [] [.pc, .stack] s ((s.push a).setPc b) :=
  ((push_frame s a).mono (by simp) (by simp)).trans ((setPc_frame _ b).mono (by simp) (by simp))

/-- Settles O16, by whether a bounded stack is full (R123, R125). -/
theorem callPushesTheReturnAddress : Obligations.CallPushesTheReturnAddress := by
  intro nnn
  refine ⟨decode_wordAddr_two nnn, fun s a hpc => ⟨fun hroom => ?room, fun d hd hlen => ?full⟩⟩
  case room =>
    have hnot : s.stackFull = false :=
      Bool.eq_false_of_not_eq_true fun hfull => hroom _ ((stackFull_iff s).mp hfull) rfl
    exact ⟨_, exec_call_of_room hnot, congrArg (· :: s.stack) hpc, addrOperand_toNat nnn,
      push_setPc_frame s _ _⟩
  case full =>
    have hfull : s.stackFull = true := (stackFull_iff s).mpr (hlen ▸ hd)
    rw [exec_call_of_full hfull, instrAddr_of_pc hpc]

/-- Settles O17: the CALL left the post-fetch PC on top of the old stack, and RET pops it into PC. -/
theorem retAfterCallReturns : Obligations.RetAfterCallReturns := by
  intro nnn s t t' hcall hstack
  obtain ⟨-, rfl⟩ := exec_call_next hcall
  exact ⟨_, exec_ret_of_cons hstack, rfl, rfl⟩

end Sys2Proof.Machine
end

section
/-! PROOFS. Logic, arithmetic with a flag, shifts and random (43_alu.md R153 to R162). -/

namespace Sys2Proof.Machine

/-- Settles O21: each of the three is one write of Vx, of a byte made bit by bit (R153 to R155). -/
theorem logicWorksBitwiseWithoutFlag : Obligations.LogicWorksBitwiseWithoutFlag := by
  intro x y
  refine ⟨decode_wordXYN_eight_or x y, decode_wordXYN_eight_and x y, decode_wordXYN_eight_xor x y,
    fun s => ⟨?or, ?and, ?xor⟩⟩
  case or =>
    obtain ⟨t, hexec, hv, hf⟩ := writesVx_of_exec_setV (i := .orReg x y) (s := s) rfl
    exact ⟨t, hexec, hf, fun k => hv ▸ BitVec.getLsbD_or⟩
  case and =>
    obtain ⟨t, hexec, hv, hf⟩ := writesVx_of_exec_setV (i := .andReg x y) (s := s) rfl
    exact ⟨t, hexec, hf, fun k => hv ▸ BitVec.getLsbD_and⟩
  case xor =>
    obtain ⟨t, hexec, hv, hf⟩ := writesVx_of_exec_setV (i := .xorReg x y) (s := s) rfl
    exact ⟨t, hexec, hf, fun k => hv ▸ BitVec.getLsbD_xor⟩

/-! ### A result and then the flag -/

theorem flagByte_decide_toNat (p : Prop) [Decidable p] :
    (flagByte (decide p)).toNat = if p then 1 else 0 := by
  by_cases hp : p <;> simp [flagByte, hp]

/-- An instruction that writes Vx and then VF completes with both values, the flag standing where x is F
(R156, R157, R159, D15). -/
theorem flagged_of_exec {i : Instr} {s : State} {x : Nibble} {b : Byte} {p : Prop} [Decidable p] {n : Nat}
    (hexec : exec i s = .next ((s.setV x b).setVf (decide p))) (hb : b.toNat = n) :
    ∃ t, exec i s = .next t ∧ (x ≠ 0xF → (t.getV x).toNat = n) ∧
      (t.getV 0xF).toNat = (if p then 1 else 0) ∧ ChangesOnly [x, 0xF] [] s t := by
  refine ⟨_, hexec, fun hx => ?_, ?_, flagged_frame s x b _⟩
  · rw [getV_setVf, if_neg hx, getV_setV_same, hb]
  · rw [getV_setVf, if_pos rfl, flagByte_decide_toNat]

/-- Settles O22: the sum, then the carry (R156). -/
theorem addRegisterSetsTheCarry : Obligations.AddRegisterSetsTheCarry := fun x y =>
  ⟨decode_wordXYN_eight_add x y, fun _ => flagged_of_exec rfl (BitVec.toNat_add _ _)⟩

/-- R162: a difference of bytes is taken modulo 256. -/
theorem byte_sub_toNat (a b : Byte) : (a - b).toNat = (a.toNat + 256 - b.toNat) % 256 := by
  have hb := b.isLt
  rw [BitVec.toNat_sub]
  congr 1
  omega

/-- Settles O23: each difference, then not-borrow (R157, R159). -/
theorem subtractSetsNotBorrow : Obligations.SubtractSetsNotBorrow := fun x y =>
  ⟨decode_wordXYN_eight_sub x y, decode_wordXYN_eight_subn x y, fun _ =>
    ⟨flagged_of_exec rfl (byte_sub_toNat _ _), flagged_of_exec rfl (byte_sub_toNat _ _)⟩⟩

/-! ### The flag and then a shift -/

theorem lowBit_toNat (a : Byte) : (flagByte (lowBit a)).toNat = a.toNat % 2 := by
  have hbit : lowBit a = decide (a.toNat % 2 = 1) := by
    rw [lowBit, BitVec.getLsbD, Nat.testBit_zero]
  rw [hbit, flagByte_decide_toNat]
  split <;> omega

theorem highBit_eq (a : Byte) : highBit a = decide (128 ≤ a.toNat) := by
  have ha := a.isLt
  rw [highBit, BitVec.getLsbD, Nat.testBit_eq_decide_div_mod_eq]
  exact decide_eq_decide.mpr (by omega)

theorem highBit_toNat (a : Byte) : (flagByte (highBit a)).toNat = a.toNat / 128 := by
  have ha := a.isLt
  rw [highBit_eq, flagByte_decide_toNat]
  split <;> omega

/-- An instruction that writes VF and then shifts Vx: for x other than F both values stand, and for x = F the
shift takes the flag itself (R158, R160, D16). -/
theorem shifted_of_exec {i : Instr} {s : State} {x : Nibble} {c : Bool} {shift : Byte → Byte}
    (hexec : exec i s = .next ((s.setVf c).setV x (shift ((s.setVf c).getV x)))) :
    ∃ t, exec i s = .next t ∧
      (x ≠ 0xF → t.getV x = shift (s.getV x) ∧ t.getV 0xF = flagByte c) ∧
      (x = 0xF → t.getV 0xF = shift (flagByte c)) ∧ ChangesOnly [x, 0xF] [] s t := by
  refine ⟨_, hexec, fun hx => ⟨?_, ?_⟩, fun hx => ?_, shifted_frame s x _ c⟩
  · rw [getV_setV_same, getV_setVf, if_neg hx]
  · rw [getV_setV_of_ne _ _ (Ne.symm hx), getV_setVf, if_pos rfl]
  · rw [hx, getV_setV_same, getV_setVf, if_pos rfl]

/-- Settles O24: each shift is the flag and then the shift of what Vx holds (R158, R160). -/
theorem shiftsWriteTheFlagFirst : Obligations.ShiftsWriteTheFlagFirst := by
  intro x y
  refine ⟨decode_wordXYN_eight_shr x y, decode_wordXYN_eight_shl x y, fun s => ⟨?right, ?left⟩⟩
  case right =>
    obtain ⟨t, hexec, hne, heq, hf⟩ := shifted_of_exec (i := .shr x y) (s := s) (shift := (· >>> 1)) rfl
    refine ⟨t, hexec, fun hx => ?_, fun hx => ?_, hf⟩
    · obtain ⟨hv, hflag⟩ := hne hx
      rw [hv, hflag, lowBit_toNat, BitVec.toNat_ushiftRight]
      exact ⟨Nat.shiftRight_eq_div_pow _ 1, rfl⟩
    · rw [heq hx]
      cases lowBit (s.getV x) <;> rfl
  case left =>
    obtain ⟨t, hexec, hne, heq, hf⟩ := shifted_of_exec (i := .shl x y) (s := s) (shift := (· <<< 1)) rfl
    refine ⟨t, hexec, fun hx => ?_, fun hx => ?_, hf⟩
    · obtain ⟨hv, hflag⟩ := hne hx
      rw [hv, hflag, highBit_toNat, BitVec.toNat_shiftLeft, Nat.shiftLeft_eq]
      exact ⟨rfl, rfl⟩
    · rw [heq hx, hx, highBit_eq, flagByte]
      simp only [decide_eq_true_eq]
      split <;> rfl

/-! ### Random -/

/-- Settles O25: RND takes one draw and writes it, masked, to Vx (R161). -/
theorem rndMasksTheDraw : Obligations.RndMasksTheDraw := by
  intro x kk
  refine ⟨decode_wordXKk_twelve x kk, fun s => ?_⟩
  have hexec : exec (.rnd x kk) s =
      .next (s.drawRandom.2.setV x (Config.randomByte s.draws &&& kk)) := rfl
  have hmask (b : Byte) : b &&& kk &&& ~~~kk = 0 := by
    rw [BitVec.and_assoc, BitVec.and_not_self]
    exact BitVec.and_zero
  refine ⟨_, hexec, getV_setV_same _ x _, ?_, rfl, ?_⟩
  · rw [getV_setV_same, hmask]
  · exact ((drawRandom_frame s).mono (by simp) (by simp)).trans
      ((setV_frame _ x _).mono (by simp) (by simp))

end Sys2Proof.Machine
end

section
/-! PROOFS. I and the memory transfers (44_index_memory.md R181, R183 to R186). -/

namespace Sys2Proof.Machine

/-- Settles O27: ADD I, Vx is one write of I, of a sum modulo 2^16 (R181, D19). -/
theorem addToIndexWrapsWithoutFlag : Obligations.AddToIndexWrapsWithoutFlag := by
  intro x
  refine ⟨decode_wordXKk_fifteen_addI x, fun s => writesI_of_exec_setI rfl ?_⟩
  rw [BitVec.toNat_add, wordV_toNat]

/-! ### Stores -/

/-- An instruction that stores bytes from I up, all inside memory, completes with them there and every other
byte and part as before (R183, R184). -/
theorem stores_of_exec {i : Instr} {s : State} {bs : List Byte}
    (hexec : exec i s = answerOf (s.storeBytes s.base bs)) (h : s.i.toNat + bs.length ≤ 4096) :
    ∃ t, exec i s = .next t ∧ (∀ k (hk : k < bs.length), t.mem.read (s.i.toNat + k) = bs[k]) ∧
      (∀ c, c < s.i.toNat ∨ s.i.toNat + bs.length ≤ c → t.mem.read c = s.mem.read c) ∧
      ChangesOnly [] [.mem] s t := by
  obtain ⟨m, hm, hin, hout, -⟩ := storeBytes_ok s s.base bs h
  exact ⟨_, hexec.trans (congrArg answerOf hm), hin, hout, mem_frame s m⟩

/-- Stored bytes that pass the end of memory fault at the first address outside it (R53). -/
theorem faults_of_exec {i : Instr} {s : State} {bs : List Byte}
    (hexec : exec i s = answerOf (s.storeBytes s.base bs)) (hne : bs ≠ [])
    (h : 4096 < s.i.toNat + bs.length) : exec i s = .fault (.memoryOutOfBounds (max s.i.toNat 4096)) :=
  hexec.trans (congrArg answerOf (storeBytes_error s s.base bs hne h))

/-- Settles O28: LD B, Vx stores the three digits from I up (R183, D20). -/
theorem bcdStoresTheDigits : Obligations.BcdStoresTheDigits := by
  intro x
  refine ⟨decode_wordXKk_fifteen_digits x, fun s => ⟨fun h => ?inside, fun h => ?outside⟩⟩
  case inside =>
    have hv := (s.getV x).isLt
    obtain ⟨t, hexec, hin, hout, hf⟩ := stores_of_exec (i := .bcd x) (s := s) rfl h
    refine ⟨t, hexec, ?_, ?_, ?_, hout, hf⟩
    · exact (congrArg BitVec.toNat (hin 0 (show 0 < 3 by decide))).trans (Nat.mod_eq_of_lt (by omega))
    · exact (congrArg BitVec.toNat (hin 1 (show 1 < 3 by decide))).trans (Nat.mod_eq_of_lt (by omega))
    · exact (congrArg BitVec.toNat (hin 2 (show 2 < 3 by decide))).trans (Nat.mod_eq_of_lt (by omega))
  case outside =>
    exact faults_of_exec (bs := decimalDigits (s.getV x)) rfl (List.cons_ne_nil _ _) h

/-- Settles O29: LD [I], Vx stores the list of V0 to Vx from I up (R184, D20). -/
theorem storeRegistersWritesMemory : Obligations.StoreRegistersWritesMemory := by
  intro x
  refine ⟨decode_wordXKk_fifteen_store x, fun s => ⟨fun h => ?inside, fun h => ?outside⟩⟩
  case inside =>
    have hlen := firstV_length s x
    obtain ⟨t, hexec, hin, hout, hf⟩ := stores_of_exec (i := .storeRegs x) (s := s) rfl (by omega)
    refine ⟨t, hexec, fun k hk => ?_, fun c hc => hout c (by omega), hf⟩
    have hk' : k.toNat < (s.firstV x).length := by omega
    rw [hin k.toNat hk', firstV_getElem s x k hk']
  case outside =>
    have hlen := firstV_length s x
    exact faults_of_exec rfl (List.ne_nil_of_length_pos (by omega)) (by omega)

/-- A LD [I], Vx that completes stayed inside memory and left V0 to Vx there (R184). -/
theorem exec_storeRegs_next {x : Nibble} {s t : State} (h : exec (.storeRegs x) s = .next t) :
    s.i.toNat + x.toNat < 4096 ∧
    (∀ k : Nibble, k.toNat ≤ x.toNat → t.mem.read (s.i.toNat + k.toNat) = s.getV k) ∧
    ChangesOnly [] [.mem] s t := by
  obtain ⟨hinside, houtside⟩ := (storeRegistersWritesMemory x).2 s
  by_cases hx : s.i.toNat + x.toNat < 4096
  · obtain ⟨u, hexec, hin, -, hf⟩ := hinside hx
    cases h.symm.trans hexec
    exact ⟨hx, hin, hf⟩
  · cases h.symm.trans (houtside (Nat.not_lt.mp hx))

/-! ### Loads -/

/-- Settles O30: LD Vx, [I] loads V0 to Vx from I up (R185, D20). -/
theorem loadRegistersReadsMemory : Obligations.LoadRegistersReadsMemory := by
  intro x
  refine ⟨decode_wordXKk_fifteen_load x, fun s => ⟨fun h => ?inside, fun h => ?outside⟩⟩
  case inside =>
    obtain ⟨v, hv, hget⟩ := loadFrom_ok s s.base 0 (x.toNat + 1) (by have := x.isLt; omega)
      (by simp only [State.base, Config.memSize]; omega)
    have hexec : exec (.loadRegs x) s = .next { s with v := v } := congrArg answerOf hv
    refine ⟨_, hexec, fun k => (hget k).trans ?_, exec_frame _ _ _ hexec⟩
    simp only [Nat.zero_le, true_and, Nat.zero_add, Nat.lt_succ_iff, State.base]
  case outside =>
    have hf := loadFrom_error s s.base 0 (x.toNat + 1) (by omega)
      (by simp only [State.base, Config.memSize]; omega)
    exact congrArg answerOf hf

/-- Settles O31: the store stayed inside memory and left I, so the load reads the bytes it wrote (R184, R185,
D20). -/
theorem loadAfterStoreRestoresTheRegisters : Obligations.LoadAfterStoreRestoresTheRegisters := by
  intro x s t u hstore hi hmem
  obtain ⟨hinside, hstored, hf⟩ := exec_storeRegs_next hstore
  have hi' : u.i = s.i := hi.trans (hf.i (by simp))
  obtain ⟨w, hexec, hget, -⟩ := ((loadRegistersReadsMemory x).2 u).1 (hi' ▸ hinside)
  refine ⟨w, hexec, fun k hk => ?_⟩
  rw [hget k, if_pos hk, hi', hmem, hstored k hk]

/-- Settles O32: V0 and V1 stand at PC and PC + 1, where the next fetch reads its word (R57, R71, R184). -/
theorem storedWordIsFetchedNext : Obligations.StoredWordIsFetchedNext := by
  intro x s t hstore hx hpc
  obtain ⟨-, hstored, hf⟩ := exec_storeRegs_next hstore
  have hhi := hstored 0 (Nat.zero_le _)
  have hlo := hstored 1 hx
  rw [hpc] at hhi hlo
  rw [State.wordAtPc, hf.pc (by simp)]
  exact congrArg₂ wordOfBytes hhi hlo

end Sys2Proof.Machine
end

section
/-! PROOFS. Keys (46_timers_keys.md R213 to R216) and the host's own transactions (60_exceptions.md R252 to
R254). -/

namespace Sys2Proof.Machine

/-! ### The key instructions -/

/-- A key index below 16 names the key of its number (R213, R214). -/
theorem skipOnKey_of_key {k : Nibble} {b : Byte} (h : b.toNat = k.toNat) (level : Bool) (s : State) :
    skipOnKey b level s = .next (s.skipIf (s.keyPressed k == level)) := by
  have hlt : b.toNat < 16 := h ▸ k.isLt
  have hkey : b.setWidth 4 = k := BitVec.eq_of_toNat_eq (by
    rw [BitVec.toNat_setWidth, h, Nat.mod_eq_of_lt k.isLt])
  rw [skipOnKey, if_pos hlt, hkey]

/-- R216: a key index of 16 or more is a fault. -/
theorem skipOnKey_of_ge {b : Byte} (h : 16 ≤ b.toNat) (level : Bool) (s : State) :
    skipOnKey b level s = .fault (.keyIndexOutOfRange b) := by
  rw [skipOnKey, if_neg (Nat.not_lt.mpr h)]
  rfl

/-- Settles O39: SKP and SKNP are the shared skip on the level of one key, or the fault of its index (R213,
R214, R216). -/
theorem keySkipsReadTheKey : Obligations.KeySkipsReadTheKey := by
  intro x
  refine ⟨decode_wordXKk_fourteen_pressed x, decode_wordXKk_fourteen_released x, fun s =>
    ⟨fun k hk => ⟨?pressed, ?released⟩, fun hge => ⟨skipOnKey_of_ge hge _ s, skipOnKey_of_ge hge _ s⟩⟩⟩
  case pressed => exact skipsWhen_of_exec_skipIf (skipOnKey_of_key hk true s) beq_iff_eq
  case released => exact skipsWhen_of_exec_skipIf (skipOnKey_of_key hk false s) beq_iff_eq

/-- Settles O40, by what the keyboard scan finds (R67, R215). -/
theorem waitForKeyTakesTheLowestKeyOrWaits : Obligations.WaitForKeyTakesTheLowestKeyOrWaits := by
  intro x
  refine ⟨decode_wordXKk_fifteen_key x, fun s => ⟨fun k hk => ?some, fun hnone => ?none⟩⟩
  case some =>
    have hexec : exec (.ldVxK x) s = .next (s.setV x (k.setWidth 8)) := by
      simp only [exec, execLdVxK, (keyScan_some s k).mpr hk]
    exact ⟨_, hexec, by rw [getV_setV_same, keyByte_toNat], setV_frame s x _⟩
  case none =>
    have hexec : exec (.ldVxK x) s = .next (s.setMode (.awaitKey x)) := by
      simp only [exec, execLdVxK, (keyScan_none s).mpr hnone]
    exact ⟨_, hexec, rfl, setMode_frame s _⟩

/-! ### The host's transactions -/

theorem keyPressed_keyWrite (s : State) (k j : Nibble) (level : Bool) :
    (keyWrite k level s).keyPressed j = if j = k then level else s.keyPressed j := by
  by_cases h : j = k
  · simp [h, State.keyPressed, keyWrite]
  · have hne : k.toNat ≠ j.toNat := fun e => h (BitVec.eq_of_toNat_eq e.symm)
    simp [h, State.keyPressed, keyWrite, hne]

theorem displayAck_frame (s : State) : ChangesOnly [] [.changed] s (displayAck s) := by
  constructor
  case changed => simp
  all_goals intros; rfl

/-- A coordinate inside the display is its own column or row (R60). -/
theorem pixel_of_lt (s : State) (cx : Fin Config.width) (cy : Fin Config.height) :
    s.pixel cx cy = s.pix[cx][cy] := by
  have hx : column cx = cx := Fin.ext (Nat.mod_eq_of_lt cx.isLt)
  have hy : row cy = cy := Fin.ext (Nat.mod_eq_of_lt cy.isLt)
  simp only [State.pixel, hx, hy]

/-- Settles O42: each of the three is one write, or none, and answers in every state (R252 to R254). -/
theorem hostWritesKeysAndReadsTheDisplay : Obligations.HostWritesKeysAndReadsTheDisplay := by
  refine ⟨fun s k l => ⟨keyWrite k l s, rfl, ?_, fun j hj => ?_, rfl⟩,
    fun s => ⟨rfl, rfl, rfl, rfl, fun cx cy => (pixel_of_lt s cx cy).symm⟩,
    fun s => ⟨displayAck s, rfl, rfl, displayAck_frame s⟩⟩
  · rw [keyPressed_keyWrite, if_pos rfl]
  · rw [keyPressed_keyWrite, if_neg hj]

end Sys2Proof.Machine
end

section
/-! PROOFS. What reset leaves in the devices, and what boot loads (10_state.md section 7, 70_reset_and_hazards.md
section 2). -/

namespace Sys2Proof.Machine

@[simp] theorem reset_pixel (x y : Nat) : State.reset.pixel x y = false := by
  simp [State.pixel, State.reset]

@[simp] theorem reset_keyPressed (k : Nibble) : State.reset.keyPressed k = false := by
  simp [State.keyPressed, State.reset]

/-- Settles O44: the display, the keyboard and the record of a session's start are those of reset (R42 to
R44). -/
theorem resetClearsTheDevices : Obligations.ResetClearsTheDevices := by
  rintro s (rfl | ⟨p, image, rfl⟩)
  case inl => exact ⟨reset_pixel, reset_keyPressed, rfl⟩
  case inr => exact ⟨reset_pixel, reset_keyPressed, rfl⟩

/-! ### Boot -/

/-- The memory that the font is written to, before the image (R262). -/
def fontMemory (p : BootParams) : Memory := Memory.writeAll [] Config.fontBase p.font.toList

theorem start_mem (p : BootParams) (image : List Byte) :
    (State.start p image).mem = (fontMemory p).load image := rfl

/-- R40: past the font, what memory does not list is 0. -/
theorem read_nil_of_ge {a : Nat} (h : 80 ≤ a) : Memory.read [] a = 0 :=
  List.getD_eq_default _ _ h

theorem read_fontMemory_inside (p : BootParams) (k : Fin 80) : (fontMemory p).read k = p.font[k] := by
  have h := read_writeAll_inside [] Config.fontBase p.font.toList k (by simp)
  simpa [fontMemory, Config.fontBase] using h

theorem read_fontMemory_outside (p : BootParams) {a : Nat} (h : 80 ≤ a) : (fontMemory p).read a = 0 := by
  rw [fontMemory, read_writeAll_outside _ _ _ (by simp [Config.fontBase, Config.fontSize, h]),
    read_nil_of_ge h]

/-- Below PROGRAM_START a load changes nothing (R262). -/
theorem read_load_below (m : Memory) (image : List Byte) {a : Nat} (h : a < 0x200) :
    (m.load image).read a = m.read a :=
  read_writeAll_outside _ _ _ (.inl h)

/-- Inside the image, a load gives its bytes (R262). -/
theorem read_load_inside (m : Memory) (image : List Byte) {k : Nat} (hk : k < 3584)
    (hlen : k < image.length) : (m.load image).read (0x200 + k) = image[k] := by
  have h := read_writeAll_inside m Config.programStart
    (image.take (Config.memSize - Config.programStart)) k (by
      simp only [List.length_take, Config.memSize, Config.programStart]; omega)
  exact h.trans List.getElem_take

/-- Past the image, a load changes nothing (R262). -/
theorem read_load_past (m : Memory) (image : List Byte) {k : Nat} (hlen : image.length ≤ k) :
    (m.load image).read (0x200 + k) = m.read (0x200 + k) := by
  refine read_writeAll_outside _ _ _ (.inr ?_)
  simp only [List.length_take, Config.memSize, Config.programStart]
  omega

/-- Settles O45: the font is below the image, and outside both every byte past the font is 0 (R40, R262,
R263). -/
theorem bootLoadsTheFontAndTheImage : Obligations.BootLoadsTheFontAndTheImage := by
  refine fun p => ⟨rfl, fun image => ⟨State.start p image, rfl, ?_⟩⟩
  rw [start_mem]
  refine ⟨fun k => ?font, fun a hge hlt => ?gap, fun k hk => ?loaded⟩
  case font =>
    rw [read_load_below _ _ (by omega), read_fontMemory_inside]
  case gap => rw [read_load_below _ _ hlt, read_fontMemory_outside _ hge]
  case loaded =>
    by_cases hlen : k < image.length
    · rw [read_load_inside _ _ hk hlen, List.getD_eq_getElem _ _ hlen]
    · rw [read_load_past _ _ (Nat.not_lt.mp hlen), read_fontMemory_outside _ (by omega),
        List.getD_eq_default _ _ (Nat.not_lt.mp hlen)]

end Sys2Proof.Machine
end

section
/-! PROOFS. The canonical form of memory is faithful (10_state.md section 6, log 9). -/

namespace Sys2Proof.Machine

theorem read_cons (k : Nat) (b : Byte) (m : Memory) (a : Nat) :
    Memory.read ((k, b) :: m) a = if k = a then b else m.read a := by
  by_cases h : k = a <;> simp [Memory.read, Memory.lookup, h]

theorem wfFrom_cons {lo k : Nat} {b : Byte} {m : Memory} :
    Memory.wfFrom lo ((k, b) :: m) = true ↔
      ((lo ≤ k ∧ k < Config.memSize) ∧ b ≠ Memory.blank k) ∧ m.wfFrom (k + 1) = true := by
  simp only [Memory.wfFrom, Bool.and_eq_true, decide_eq_true_eq, bne_iff_ne]

/-- Below its first address a canonical memory reads as at reset. -/
theorem read_of_lt_wfFrom {lo a : Nat} {m : Memory} (h : m.wfFrom lo = true) (ha : a < lo) :
    m.read a = Memory.blank a := by
  induction m generalizing lo with
  | nil => rfl
  | cons c m ih =>
    obtain ⟨k, b⟩ := c
    obtain ⟨⟨⟨hlo, -⟩, -⟩, hm⟩ := wfFrom_cons.mp h
    rw [read_cons, if_neg (by omega)]
    exact ih hm (by omega)

/-- The first listed byte of a canonical memory differs from what a memory reads there that lists nothing so
low. -/
theorem read_cons_ne {lo k : Nat} {b : Byte} {m m' : Memory} (h : Memory.wfFrom lo ((k, b) :: m) = true)
    (h' : m'.wfFrom (k + 1) = true) : Memory.read ((k, b) :: m) k ≠ m'.read k := by
  obtain ⟨⟨-, hb⟩, -⟩ := wfFrom_cons.mp h
  rw [read_cons, if_pos rfl, read_of_lt_wfFrom h' (Nat.lt_succ_self k)]
  exact hb

theorem eq_of_read_eq {m m' : Memory} {lo lo' : Nat} (h : m.wfFrom lo = true) (h' : m'.wfFrom lo' = true)
    (heq : ∀ a, m.read a = m'.read a) : m = m' := by
  induction m generalizing lo m' lo' with
  | nil =>
    cases m' with
    | nil => rfl
    | cons c' m' => exact absurd (heq c'.1).symm (read_cons_ne h' rfl)
  | cons c m ih =>
    obtain ⟨k, b⟩ := c
    cases m' with
    | nil => exact absurd (heq k) (read_cons_ne h rfl)
    | cons c' m' =>
      obtain ⟨k', b'⟩ := c'
      obtain ⟨⟨⟨hlo, hk⟩, hb⟩, hm⟩ := wfFrom_cons.mp h
      obtain ⟨⟨⟨hlo', hk'⟩, hb'⟩, hm'⟩ := wfFrom_cons.mp h'
      obtain hlt | rfl | hgt := Nat.lt_trichotomy k k'
      · exact absurd (heq k) (read_cons_ne h (wfFrom_cons.mpr ⟨⟨⟨hlt, hk'⟩, hb'⟩, hm'⟩))
      · have hbyte : b = b' := by simpa [read_cons] using heq k
        have htail : ∀ a, Memory.read m a = Memory.read m' a := by
          intro a
          by_cases ha : k = a
          · subst ha
            rw [read_of_lt_wfFrom hm (Nat.lt_succ_self k), read_of_lt_wfFrom hm' (Nat.lt_succ_self k)]
          · simpa [read_cons, ha] using heq a
        rw [hbyte, ih hm hm' htail]
      · exact absurd (heq k').symm (read_cons_ne h' (wfFrom_cons.mpr ⟨⟨⟨hgt, hk⟩, hb⟩, hm⟩))

/-- Settles O34, by induction on the two lists: their first addresses agree, since the lower one would be
listed in one memory and read as blank in the other (log 9). -/
theorem canonicalMemoriesThatReadAlikeAreEqual : Obligations.CanonicalMemoriesThatReadAlikeAreEqual :=
  fun _ _ => eq_of_read_eq

end Sys2Proof.Machine
end

section
/-! PROOFS. DRW (45_display.md R201 to R204): what one drawing does, in the terms of the covered pixels, and
that a second drawing of the same sprite undoes the first. -/

namespace Sys2Proof.Machine

/-- A set sprite bit falls on a pixel exactly when it falls on its column and row (R60, R202). -/
theorem spriteAt_iff (m : Memory) (a n x y cx cy : Nat) :
    SpriteAt m a n x y cx cy ↔ spriteCovers m a n x y (cx % Config.width) (cy % Config.height) := by
  constructor
  · rintro ⟨k, hk, hy, j, hj, hx⟩
    obtain ⟨hj, hbit⟩ := (spriteBits_getElem? _ j).mp hj
    exact ⟨k, j, hk, hj, hbit, hx, hy⟩
  · rintro ⟨k, j, hk, hj, hbit, hx, hy⟩
    exact ⟨k, hk, hy, j, (spriteBits_getElem? _ j).mpr ⟨hj, hbit⟩, hx⟩

theorem spriteAt_iff_of_lt (m : Memory) (a n x y : Nat) {cx cy : Nat} (hx : cx < 64) (hy : cy < 32) :
    SpriteAt m a n x y cx cy ↔ spriteCovers m a n x y cx cy := by
  rw [spriteAt_iff, Nat.mod_eq_of_lt hx, Nat.mod_eq_of_lt hy]

/-- What a sprite covers are columns and rows of the display (R202). -/
theorem lt_of_spriteCovers {m : Memory} {a n x y cx cy : Nat} (h : spriteCovers m a n x y cx cy) :
    cx < 64 ∧ cy < 32 := by
  obtain ⟨k, j, -, -, -, rfl, rfl⟩ := h
  exact ⟨Nat.mod_lt _ (by decide), Nat.mod_lt _ (by decide)⟩

/-- From `s` to `t` the `n` sprite rows at I were drawn at `(vx, vy)` (R201): each covered pixel is toggled and
every other one kept, `hit` says whether a covered one was lit, and but for VF only the display changed. -/
structure Drawn (n vx vy : Nat) (hit : Bool) (s t : State) : Prop where
  toggled : ∀ cx cy, SpriteAt s.mem s.i.toNat n vx vy cx cy → t.pixel cx cy = !s.pixel cx cy
  kept : ∀ cx cy, ¬ SpriteAt s.mem s.i.toNat n vx vy cx cy → t.pixel cx cy = s.pixel cx cy
  hit_iff : hit = true ↔ ∃ cx cy, SpriteAt s.mem s.i.toNat n vx vy cx cy ∧ s.pixel cx cy = true
  flag : t.getV vf = flagByte hit
  changed : t.changed = if n = 0 then s.changed else true
  mem : t.mem = s.mem
  frame : ChangesOnly [vf] [.pix, .changed] s t

theorem exec_drw_inside (x y n : Nibble) (s : State) (h : n = 0 ∨ s.i.toNat + n.toNat ≤ 4096) :
    ∃ t hit, exec (.drw x y n) s = .next t ∧
      Drawn n.toNat (s.getV x).toNat (s.getV y).toNat hit s t := by
  have h' : n.toNat = 0 ∨ s.base + n.toNat ≤ Config.memSize := h.imp_left (congrArg BitVec.toNat)
  obtain ⟨u, hit, hu, hd, hc, hp, hh⟩ :=
    drawRows_ok s (s.getV x).toNat (s.getV y).toNat s.base n.toNat (rows_le_height n) h'
  have hexec : exec (.drw x y n) s = .next (u.setVf hit) := by
    simp only [exec, execDrw, hu]
  exact ⟨_, hit, hexec,
    { toggled := fun cx cy => (hp cx cy).1
      kept := fun cx cy => (hp cx cy).2
      hit_iff := hh
      flag := getV_setV_same u vf _
      changed := hc
      mem := hd.mem
      frame := exec_frame _ s _ hexec }⟩

/-- A sprite of which a row lies outside memory faults at the first such address (R53). -/
theorem exec_drw_outside (x y n : Nibble) (s : State) (hn : n ≠ 0) (h : 4096 < s.i.toNat + n.toNat) :
    exec (.drw x y n) s = .fault (.memoryOutOfBounds (max s.i.toNat 4096)) := by
  have hpos : 0 < n.toNat := Nat.pos_of_ne_zero fun h0 => hn (BitVec.eq_of_toNat_eq h0)
  simp only [exec, execDrw, drawRows_error s _ _ s.base n.toNat hpos h]
  rfl

theorem flagByte_eq_one (b : Bool) : flagByte b = 1 ↔ b = true := by cases b <;> decide

theorem flagByte_one_or_zero (b : Bool) : flagByte b = 1 ∨ flagByte b = 0 := by cases b <;> decide

/-- A pixel of the covered ones, named by its column and row. -/
theorem exists_spriteAt_iff {s : State} {m : Memory} {a n x y : Nat} :
    (∃ cx cy, SpriteAt m a n x y cx cy ∧ s.pixel cx cy = true) ↔
      ∃ cx cy, cx < 64 ∧ cy < 32 ∧ s.pixel cx cy = true ∧ spriteCovers m a n x y cx cy := by
  constructor
  · rintro ⟨cx, cy, hat, hp⟩
    have hlit : s.pixel (cx % Config.width) (cy % Config.height) = true :=
      (pixel_congr s (Nat.mod_mod _ _) (Nat.mod_mod _ _)).trans hp
    exact ⟨_, _, Nat.mod_lt _ (by decide), Nat.mod_lt _ (by decide), hlit, (spriteAt_iff ..).mp hat⟩
  · rintro ⟨cx, cy, hx, hy, hp, hcov⟩
    exact ⟨cx, cy, (spriteAt_iff_of_lt _ _ _ _ _ hx hy).mpr hcov, hp⟩

/-- Settles O36: a drawing inside memory is `Drawn`, whose covered pixels are named by column and row; one
outside faults (R201, R202, R204). -/
theorem drwXorsTheSprite : Obligations.DrwXorsTheSprite := by
  intro x y n
  refine ⟨decode_wordXYN_thirteen x y n, fun s => ⟨fun h => ?inside, exec_drw_outside x y n s⟩⟩
  obtain ⟨t, hit, hexec, hd⟩ := exec_drw_inside x y n s h
  refine ⟨t, hexec, fun cx cy hx hy => ?pixel, ?bit, ?collision, ?changed, hd.frame⟩
  case pixel =>
    rw [← spriteAt_iff_of_lt _ _ _ _ _ hx hy]
    exact ⟨hd.toggled cx cy, hd.kept cx cy⟩
  case bit => exact hd.flag ▸ flagByte_one_or_zero hit
  case collision => rw [hd.flag, flagByte_eq_one, hd.hit_iff, exists_spriteAt_iff]
  case changed =>
    have hn : n = 0 ↔ n.toNat = 0 := BitVec.toNat_inj.symm
    simp only [hd.changed, hn]

/-- The same sprite at the same place covers the same pixels before and after it is drawn, and so a second
drawing restores each of them (D6, D20). -/
theorem Drawn.twice {n vx vy : Nat} {hit hit' : Bool} {s t u : State} (h : Drawn n vx vy hit s t)
    (h' : Drawn n vx vy hit' t u) (cx cy : Nat) : u.pixel cx cy = s.pixel cx cy := by
  have hi : t.i = s.i := h.frame.i (by simp)
  have hat : SpriteAt t.mem t.i.toNat n vx vy cx cy ↔ SpriteAt s.mem s.i.toNat n vx vy cx cy := by
    rw [h.mem, hi]
  by_cases hc : SpriteAt s.mem s.i.toNat n vx vy cx cy
  · rw [h'.toggled cx cy (hat.mpr hc), h.toggled cx cy hc, Bool.not_not]
  · rw [h'.kept cx cy (mt hat.mp hc), h.kept cx cy hc]

/-- On a clear display the first drawing lights what it covers, so the second collides exactly when the sprite
has a set bit (W5). -/
theorem Drawn.second_hit_iff {n vx vy : Nat} {hit hit' : Bool} {s t u : State} (h : Drawn n vx vy hit s t)
    (h' : Drawn n vx vy hit' t u) (hclear : ∀ cx cy, s.pixel cx cy = false) :
    hit' = true ↔ ∃ cx cy, spriteCovers s.mem s.i.toNat n vx vy cx cy := by
  have hi : t.i = s.i := h.frame.i (by simp)
  rw [h'.hit_iff, h.mem, hi]
  constructor
  · rintro ⟨cx, cy, hat, -⟩
    exact ⟨_, _, (spriteAt_iff ..).mp hat⟩
  · rintro ⟨cx, cy, hcov⟩
    obtain ⟨hx, hy⟩ := lt_of_spriteCovers hcov
    have hat := (spriteAt_iff_of_lt _ _ _ _ _ hx hy).mpr hcov
    exact ⟨cx, cy, hat, by rw [h.toggled cx cy hat, hclear, Bool.not_false]⟩

/-- A DRW that completes stayed inside memory or drew no row (R201). -/
theorem exec_drw_next_inside {x y n : Nibble} {s t : State} (h : exec (.drw x y n) s = .next t) :
    n = 0 ∨ s.i.toNat + n.toNat ≤ 4096 := by
  by_contra hout
  obtain ⟨hn, hgt⟩ := not_or.mp hout
  cases h.symm.trans (exec_drw_outside x y n s hn (Nat.not_le.mp hgt))

/-- Settles O37: with coordinates outside VF the second DRW draws the same sprite at the same place, from the
memory and the I that the first one left alone (D6, D20). -/
theorem drawingTwiceRestoresTheDisplay : Obligations.DrawingTwiceRestoresTheDisplay := by
  intro x y n s t hx hy h
  have hin := exec_drw_next_inside h
  obtain ⟨t', hit, hexec, hd⟩ := exec_drw_inside x y n s hin
  cases h.symm.trans hexec
  have hi : t.i = s.i := hd.frame.i (by simp)
  have hvx : t.getV x = s.getV x := hd.frame.v x (by simpa using hx)
  have hvy : t.getV y = s.getV y := hd.frame.v y (by simpa using hy)
  obtain ⟨u, hit', hexec', hd'⟩ := exec_drw_inside x y n t (hi ▸ hin)
  rw [hvx, hvy] at hd'
  refine ⟨u, hexec', hd.twice hd', fun hclear => ?_⟩
  rw [hd'.flag, flagByte_eq_one, hd.second_hit_iff hd' hclear]

end Sys2Proof.Machine
end
